-- ==== Sys2Proof/Word.lean ====
section
/-! DEFINITION. The Word and byte types (00_scope.md R6, R7). Addition and the bitwise operators are
BitVec's own, which are the operators of R8; RotateLeft (R140) is in Machine/Scheduler.lean. -/

namespace Sys2Proof

/-- A Word, R6: "a 32-bit unsigned integer". -/
abbrev Word := BitVec 32

/-- A byte, R7. -/
abbrev Byte := BitVec 8

end Sys2Proof
end

