-- ==== Sys2Proof/Config.lean ====
section
/-! DEFINITION. The implementation parameters (00_scope.md R5, 20_memory.md R60) and the values the
spec leaves unspecified ("draws", 00_scope.md R10), each a constant without a body. -/

namespace Sys2Proof

/-- How the bit length is written into the padded message (R5, R118). -/
inductive LenMode where
  | full64
  | trunc32
  deriving DecidableEq, Repr

/-- The parameters of one instance: configuration that never changes while the hardware runs (R5).
MAX_SIZE is an integer in [0, 2^32 - 1], which is the range of a 32-bit word. REG_BASE is the byte
address of the register window (R60). -/
structure Config where
  maxSize : Word
  lenMode : LenMode
  regBase : Nat
  deriving DecidableEq, Repr

namespace Config

/-- DESIGN CHOICE (log 1, log 2): the parameter values of `State.reset`. R5 gives RS's example
capacity 2^20 and the default FULL64; REG_BASE is open and is 0 here. Every statement of the model
holds for all parameter values. -/
def standard : Config := { maxSize := 0x00100000, lenMode := .full64, regBase := 0 }

/-- Free value (log 10): the Word the k-th DIGEST read made while BUSY returns (R251, "a draw, a free
input under no law, independently at each read"). -/
opaque digestDraw (k : Nat) : Word

/-- Free value (log 9): what platform reset number `r` leaves in element `slot` of S, W, i, j and t
(R300, "unspecified"). -/
opaque resetDraw (r slot : Nat) : Word

/-- Free value (log 5): the byte at address `a` of MSG that nothing has written since platform reset
number `r` (R22, "every byte unspecified"; R300, "each byte a draw"). -/
opaque unwrittenByte (r a : Nat) : Byte

end Config

end Sys2Proof
end

