-- ==== Sys2Proof/Syntax.lean ====
section
/-! DEFINITION. What the agents can ask of the hardware: the eight instructions of opcode_table.json,
the register window, a host access, and a turn of an agent. -/

namespace Sys2Proof

/-- One constructor per row of opcode_table.json: the four host commands (30_encoding.md R83) and the
four core steps (R98). -/
inductive Instr where
  /-- NOP, R241 -/
  | nop
  /-- INIT, R242 -/
  | init
  /-- PUSH_BYTE b, R244 -/
  | pushByte (b : Byte)
  /-- START, R245 -/
  | start
  /-- LOAD, R211 -/
  | load
  /-- EXPAND, R212 -/
  | expand
  /-- ROUND, R213 -/
  | round
  /-- ACCUM, R214 -/
  | accum
  deriving DecidableEq, Repr

/-- The two formats of opcode_table.json: a 32-bit command word (R82), or a 3-bit phase code (R98). -/
inductive Encoded where
  | cmd (v : Word)
  | phase (code : BitVec 3)
  deriving DecidableEq, Repr

/-- The sequencer state (10_state.md R32). -/
inductive Phase where
  | idle
  | load
  | expand
  | round
  | accum
  | done
  deriving DecidableEq, Repr

/-- The registers of the window (R80). `reserved k` is offset 0x2C + 4k (R94). -/
inductive Reg where
  | cmd
  | status
  | len
  | blkcnt
  | digest (k : Fin 5)
  | capacity
  | config
  | reserved (k : Fin 5)
  deriving DecidableEq, Repr

/-- What a host access does with the register it names. -/
inductive Direction where
  | read
  | write (v : Word)
  deriving DecidableEq, Repr

/-- One host access: a byte address, a width in bits, and a direction. 20_memory.md R64 gives a
meaning to 32-bit accesses at the sixteen registers only. -/
structure Access where
  addr : Nat
  width : Nat
  dir : Direction
  deriving DecidableEq, Repr

/-- One turn of an agent in the interleaving of R68: a host access (R20), a turn of the Core (R210),
or a platform reset (R300). -/
inductive Turn where
  | host (a : Access)
  | core
  | reset
  deriving DecidableEq, Repr

end Sys2Proof
end

