-- ==== Sys2Proof/Machine/State.lean ====
section
/-! DEFINITION. The state of one instance (10_state.md R21), the reasons a step can stop, and the state
right after reset (70_reset_and_hazards.md R300). -/

namespace Sys2Proof.Machine

/-- H[0..4], the DigestState (R24). -/
structure DigestState where
  h0 : Word
  h1 : Word
  h2 : Word
  h3 : Word
  h4 : Word
  deriving DecidableEq, Repr

/-- S = (A, B, C, D, E), the WorkingState (R25). -/
structure WorkingState where
  a : Word
  b : Word
  c : Word
  d : Word
  e : Word
  deriving DecidableEq, Repr

/-- The message buffer MSG (R22): the bytes written since reset, addresses strictly rising. An address
that is not listed holds no written byte (log 5). -/
abbrev Memory := List Host.Cell

/-- The IV, the initial DigestState (R27). PRESUMED (log 8): the spec takes the values from general
knowledge. -/
def iv : DigestState :=
  { h0 := 0x67452301, h1 := 0xEFCDAB89, h2 := 0x98BADCFE, h3 := 0x10325476, h4 := 0xC3D2E1F0 }

/-- The state of one instance: the twelve elements of R21, then the model's own fields. -/
structure State where
  /-- MSG, the message buffer (R22) -/
  msg : Memory
  /-- N, the message length in bytes (R23) -/
  n : BitVec 32
  /-- H[0..4] (R24) -/
  h : DigestState
  /-- S = (A, B, C, D, E) (R25) -/
  ws : WorkingState
  /-- W[0..79], the Schedule (R26) -/
  w : Vector Word 80
  /-- BLKCNT (R28) -/
  blkcnt : BitVec 32
  /-- i, the BlockIndex (R29) -/
  i : BitVec 32
  /-- j, the schedule index (R30) -/
  j : BitVec 7
  /-- t, the round index (R31) -/
  t : BitVec 7
  /-- phase (R32) -/
  phase : Phase
  /-- ERR_TOO_LARGE (R33) -/
  errTooLarge : Bool
  /-- ERR_CMD (R34) -/
  errCmd : Bool
  /-- the parameters of this instance (R5); no step changes them (log 1) -/
  cfg : Config
  /-- what the last HostRead returned to the Host; `none` before the first read (log 11) -/
  readData : Option Word
  /-- how many unspecified Words DIGEST reads have drawn (R251, log 10) -/
  drawCount : Nat
  /-- how many platform resets have happened (R300, log 9) -/
  resetCount : Nat
  /-- the turns the agents take from now on (R68, log 3) -/
  inputs : List Turn
  deriving DecidableEq, Repr

/-- Why a step stops the machine. No reachable state of R41 raises one; each is safe: the model stops
where the spec gives no behaviour. -/
inductive Fault where
  /-- raised by LOAD when i is not below blockCount(N): PadWord is given only for words of the padded
  message (R119; R41 item 2 rules it out). Safe (log 12). -/
  | blockIndexOutOfRange
  /-- raised by EXPAND when j is outside [16, 79] (R212; R41 item 3 rules it out). Safe (log 12). -/
  | scheduleIndexOutOfRange
  /-- raised by ROUND when t is outside [0, 79] (R213; R41 item 3 rules it out). Safe (log 12). -/
  | roundIndexOutOfRange
  /-- raised by PUSH_BYTE and LOAD when N exceeds MAX_SIZE, so that a message byte would lie at an
  address MSG does not have (R10, R60; R41 item 1 rules it out). Safe (log 13). -/
  | messageAddressOutOfRange
  deriving DecidableEq, Repr

/-- Why a step has no meaning. The accesses of R64 are refused by name: "the model refuses it (no step
is defined)". -/
inductive Refusal where
  /-- raised by an arm of exec that has no meaning yet. Safe. -/
  | notModelled (mnemonic : String)
  /-- raised by a host access that is not 32 bits wide (R64). Safe (log 14). -/
  | accessWidth (width : Nat)
  /-- raised by a host access outside the register window (R60, R64). Safe (log 14). -/
  | outsideWindow (addr : Nat)
  /-- raised by a host access at an offset that is not a multiple of 4 (R64). Safe (log 14). -/
  | misaligned (addr : Nat)
  deriving DecidableEq, Repr

/-- What a step answers. -/
abbrev Result := Host.Outcome State Fault Refusal

/-- The state right after reset of an instance with parameters `c` (R300). S, W, i, j and t are
unspecified there: DESIGN CHOICE 0, and 16 for j, the low end of its range in R30 (logs 6 and 7). -/
def State.resetWith (c : Config) : State :=
  { msg := []
    n := 0
    h := iv
    ws := { a := 0, b := 0, c := 0, d := 0, e := 0 }
    w := Vector.replicate 80 0
    blkcnt := 0
    i := 0
    j := 16
    t := 0
    phase := .idle
    errTooLarge := false
    errCmd := false
    cfg := c
    readData := none
    drawCount := 0
    resetCount := 0
    inputs := [] }

/-- The machine right after reset (R300), with the parameters of `Config.standard` (log 1). -/
def State.reset : State := State.resetWith Config.standard

end Sys2Proof.Machine
end

