-- ==== Sys2Proof/Machine/Ops.lean ====
section
/-! DEFINITION. The named operations over the message buffer and the registers that several rules
share: reading and writing a byte of MSG, raising an error (R270), moving the phase, seeding H, and
taking one turn off the interleaving. -/

namespace Sys2Proof.Machine

/-! ### The message buffer (R22, R60) -/

/-- The byte written at address `a`, if one has been (R10 MemRead). -/
def Memory.read? : Memory → Nat → Option Byte
  | [], _ => none
  | (x, b) :: rest, a => if x = a then some b else Memory.read? rest a

/-- Store byte `b` at address `a` (R10 MemWrite), keeping the addresses strictly rising. -/
def Memory.write : Memory → Nat → Byte → Memory
  | [], a, b => [(a, b)]
  | (x, c) :: rest, a, b =>
    if a < x then (a, b) :: (x, c) :: rest
    else if a = x then (a, b) :: rest
    else (x, c) :: Memory.write rest a b

/-- The canonical form: addresses strictly rising. An unlisted address reads as no written byte, so no
entry equals what an unlisted address reads as. -/
def Memory.wf : Memory → Bool
  | [] => true
  | [_] => true
  | (x, _) :: (y, c) :: rest => decide (x < y) && Memory.wf ((y, c) :: rest)

/-- The byte MSG holds at address `a`: the byte written there, or the unspecified byte that reset left
(R22, a free value; log 5). -/
def State.messageByte (s : State) (a : Nat) : Byte :=
  (s.msg.read? a).getD (Config.unwrittenByte s.resetCount a)

/-- Append one byte to the message: MemWrite(N, 1, b), then N <- N + 1 (R244). -/
def appendByte (b : Byte) (s : State) : State :=
  { s with msg := s.msg.write s.n.toNat b, n := s.n + 1 }

/-! ### Errors (R270) -/

/-- The two errors of the hardware (R271, R272); R273: no other error exists. -/
inductive HardwareError where
  | inputTooLarge
  | commandError
  deriving DecidableEq, Repr

/-- Raise an error: set its sticky flag and nothing else (R10, R270). The flags are ORed, not counted
(R277). There is no trap, so nothing is saved, control does not move, and there is no return from it
(R276); only INIT and reset clear the flag (R277). -/
def raiseError (e : HardwareError) (s : State) : State :=
  { s with
    errTooLarge := s.errTooLarge || decide (e = .inputTooLarge)
    errCmd := s.errCmd || decide (e = .commandError) }

/-! ### Registers -/

/-- `phase <- p` (R10). -/
def setPhase (p : Phase) (s : State) : State := { s with phase := p }

/-- `H[k] <- IV[k]` for k in [0, 4] (R24, R242, R245). -/
def seedDigest (s : State) : State := { s with h := iv }

/-- H[k] (R24). -/
def DigestState.word (h : DigestState) (k : Fin 5) : Word :=
  match k with
  | 0 => h.h0
  | 1 => h.h1
  | 2 => h.h2
  | 3 => h.h3
  | 4 => h.h4

/-- Word k of a register file of m Words. Every rule that reads one keeps its index below m; DESIGN CHOICE
(log 17): the value for other indices, which no instruction uses. -/
def wordAt {m : Nat} (v : Vector Word m) (k : Nat) : Word := if h : k < m then v[k] else 0

/-- W[k] (R26). -/
def State.scheduleWord (s : State) (k : Nat) : Word := wordAt s.w k

/-- The turn that runs now leaves the interleaving (log 3). -/
def takeTurn (s : State) : State := { s with inputs := s.inputs.tail }

/-- Platform reset in a run (R300, R302): every element takes its reset value; the unspecified ones are
free values, fresh at each reset (log 9). MSG holds no written byte. The Host is not reset: what it
last read, its draws and its coming turns stay. -/
def platformReset (s : State) : State :=
  let draw := Config.resetDraw (s.resetCount + 1)
  { State.resetWith s.cfg with
    ws := { a := draw 0, b := draw 1, c := draw 2, d := draw 3, e := draw 4 }
    w := Vector.ofFn fun k : Fin 80 => draw (5 + k.val)
    i := draw 85
    j := (draw 86).setWidth 7
    t := (draw 87).setWidth 7
    readData := s.readData
    drawCount := s.drawCount
    resetCount := s.resetCount + 1
    inputs := s.inputs }

end Sys2Proof.Machine
end

