-- ==== Sys2Proof/Machine/Flags.lean ====
section
/-! DEFINITION. The flags and STATUS: BUSY and DONE as functions of the phase (10_state.md R35), the
phase codes (30_encoding.md R87), and the STATUS word (R86). No arithmetic writes a flag (R35). -/

namespace Sys2Proof.Machine

/-- BUSY = (phase ∈ {LOAD, EXPAND, ROUND, ACCUM}) (R35). -/
def phaseBusy : Phase → Bool
  | .idle => false
  | .load => true
  | .expand => true
  | .round => true
  | .accum => true
  | .done => false

/-- The 3-bit code of a phase (R87). -/
def phaseCode : Phase → BitVec 3
  | .idle => 0
  | .load => 1
  | .expand => 2
  | .round => 3
  | .accum => 4
  | .done => 5

/-- The phase a 3-bit code names; 6 and 7 name none (R87). -/
def phaseOfCode (code : BitVec 3) : Option Phase :=
  if code = 0 then some .idle
  else if code = 1 then some .load
  else if code = 2 then some .expand
  else if code = 3 then some .round
  else if code = 4 then some .accum
  else if code = 5 then some .done
  else none

/-- BUSY (R35). -/
def State.busy (s : State) : Bool := phaseBusy s.phase

/-- DONE = (phase = DONE) (R35). -/
def State.isDone (s : State) : Bool := decide (s.phase = .done)

/-- STATUS = zext_32(PHASE_CODE(phase) ++ ERR_CMD ++ ERR_TOO_LARGE ++ DONE ++ BUSY) (R86). -/
def State.status (s : State) : Word :=
  (phaseCode s.phase ++ BitVec.ofBool s.errCmd ++ BitVec.ofBool s.errTooLarge
    ++ BitVec.ofBool s.isDone ++ BitVec.ofBool s.busy).setWidth 32

end Sys2Proof.Machine
end

