-- ==== Sys2Proof/Machine/Padder.lean ====
section
/-! DEFINITION. The word packer and the message padder (40_padder.md R110 to R121): pure functions of
the message length `n`, the length-field mode and a reader `m` of message bytes. -/

namespace Sys2Proof.Machine

/-- Pack(b0, b1, b2, b3), big-endian (R110). -/
def pack (b0 b1 b2 b3 : Byte) : Word :=
  (b0.setWidth 32 <<< 24) ||| (b1.setWidth 32 <<< 16) ||| (b2.setWidth 32 <<< 8) ||| b3.setWidth 32

/-- Unpack(w), the inverse of Pack (R111). -/
def unpack (w : Word) : Byte × Byte × Byte × Byte :=
  (w.extractLsb' 24 8, w.extractLsb' 16 8, w.extractLsb' 8 8, w.extractLsb' 0 8)

/-- blockCount(n) = floor((n + 8) / 64) + 1 (R113). -/
def blockCount (n : Nat) : Nat := (n + 8) / 64 + 1

/-- L, the length in bytes of the padded stream (R114). -/
def paddedLength (n : Nat) : Nat := 64 * blockCount n

/-- LENFIELD (R118). -/
def lengthField (mode : LenMode) (n : Nat) : BitVec 64 :=
  match mode with
  | .full64 => BitVec.ofNat 64 (8 * n)
  | .trunc32 => BitVec.ofNat 64 (8 * n % 2 ^ 32)

/-- Byte p of LENFIELD, p in [0, 7], most significant first (R117). -/
def lengthByte (mode : LenMode) (n p : Nat) : Byte :=
  (lengthField mode n).extractLsb' (56 - 8 * p) 8

/-- PadByte(k) (R119): message, terminator (R115), zero fill (R116), length field (R117). -/
def padByte (mode : LenMode) (n : Nat) (m : Nat → Byte) (k : Nat) : Byte :=
  if k < n then m k
  else if k = n then 0x80
  else if k < paddedLength n - 8 then 0x00
  else lengthByte mode n (k - (paddedLength n - 8))

/-- PadWord(w) (R119). -/
def padWord (mode : LenMode) (n : Nat) (m : Nat → Byte) (w : Nat) : Word :=
  pack (padByte mode n m (4 * w)) (padByte mode n m (4 * w + 1)) (padByte mode n m (4 * w + 2))
    (padByte mode n m (4 * w + 3))

/-- Block(i)[k] = PadWord(16 i + k) (R120). -/
def blockWord (mode : LenMode) (n : Nat) (m : Nat → Byte) (i k : Nat) : Word :=
  padWord mode n m (16 * i + k)

end Sys2Proof.Machine
end

