-- ==== Sys2Proof/Machine/Commands.lean ====
section
/-! DEFINITION. The four host commands (45_host_commands.md R241 to R246). A command that raises an
error records it and goes on: its answer is a next state (R270). -/

namespace Sys2Proof.Machine

/-- NOP: no state changes, in any phase (R241). -/
def execNop (s : State) : Result := .next s

/-- INIT, accepted in every phase (R242). MSG, S, W, i, j and t are left unchanged. -/
def execInit (s : State) : Result :=
  .next (setPhase .idle (seedDigest
    { s with n := 0, blkcnt := 0, errTooLarge := false, errCmd := false }))

/-- PUSH_BYTE b (R244), rejected while BUSY (R243). At N = MAX_SIZE the byte is dropped and
InputTooLarge raised (R271). N above MAX_SIZE is no state of R41, and MSG has no byte at address N
there (log 13). -/
def execPushByte (b : Byte) (s : State) : Result :=
  if s.busy then .next (raiseError .commandError s)
  else if s.n = s.cfg.maxSize then .next (raiseError .inputTooLarge (setPhase .idle s))
  else if s.n < s.cfg.maxSize then .next (setPhase .idle (appendByte b s))
  else .fault .messageAddressOutOfRange

/-- START (R245), rejected while BUSY (R243) and while ERR_TOO_LARGE is set (R246). -/
def execStart (s : State) : Result :=
  if s.busy then .next (raiseError .commandError s)
  else if s.errTooLarge then .next (raiseError .commandError s)
  else .next (setPhase .load (seedDigest
    { s with blkcnt := BitVec.ofNat 32 (blockCount s.n.toNat), i := 0 }))

end Sys2Proof.Machine
end

