-- ==== Sys2Proof/Machine/Scheduler.lean ====
section
/-! DEFINITION. The schedule expander (41_scheduler.md R140 to R142). -/

namespace Sys2Proof.Machine

/-- RotateLeft(k, x), k in [1, 31] (R140). -/
def rotateLeft (k : Nat) (x : Word) : Word := (x <<< k) ||| (x >>> (32 - k))

/-- The recurrence of R142 on its four operands W[j-3], W[j-8], W[j-14], W[j-16]. -/
def scheduleStep (w3 w8 w14 w16 : Word) : Word := rotateLeft 1 (w3 ^^^ w8 ^^^ w14 ^^^ w16)

/-- W with entries 0 to 15 replaced by the words of a block, the others kept (R141, R211). -/
def loadSchedule (block : Nat → Word) (w : Vector Word 80) : Vector Word 80 :=
  Vector.ofFn fun k : Fin 80 => if k.val < 16 then block k.val else wordAt w k.val

end Sys2Proof.Machine
end

