-- ==== Sys2Proof/Machine/Compressor.lean ====
section
/-! DEFINITION. The round logic (42_compressor.md R160 to R165). -/

namespace Sys2Proof.Machine

/-- Ch(B, C, D) (R161). -/
def ch (b c d : Word) : Word := (b &&& c) ||| (~~~b &&& d)

/-- Parity(B, C, D) (R162). -/
def parity (b c d : Word) : Word := b ^^^ c ^^^ d

/-- Maj(B, C, D) (R163). -/
def maj (b c d : Word) : Word := (b &&& c) ||| (b &&& d) ||| (c &&& d)

/-- RoundFunction(t, B, C, D), t in [0, 79] (R160). -/
def roundFunction (t : Nat) (b c d : Word) : Word :=
  if t ≤ 19 then ch b c d
  else if t ≤ 39 then parity b c d
  else if t ≤ 59 then maj b c d
  else parity b c d

/-- RoundConstant(t), t in [0, 79] (R164). -/
def roundConstant (t : Nat) : Word :=
  if t ≤ 19 then 0x5A827999
  else if t ≤ 39 then 0x6ED9EBA1
  else if t ≤ 59 then 0x8F1BBCDC
  else 0xCA62C1D6

/-- Round t on the working state, with schedule entry W[t] (R165); the tuple is assigned at once (R9). -/
def roundStep (t : Nat) (s : WorkingState) (wt : Word) : WorkingState :=
  { a := rotateLeft 5 s.a + roundFunction t s.b s.c s.d + s.e + roundConstant t + wt
    b := s.a
    c := rotateLeft 30 s.b
    d := s.c
    e := s.d }

end Sys2Proof.Machine
end

