-- ==== Sys2Proof/Machine/Accumulator.lean ====
section
/-! DEFINITION. The digest accumulator (43_accumulator.md R190), the digest as a 160-bit value and as 20
bytes (R192, 20_memory.md R63), and its host-side rendering (R193). -/

namespace Sys2Proof.Machine

/-- The seed of a block's working state, (A, B, C, D, E) <- (H[0], H[1], H[2], H[3], H[4]) (R166, R211). -/
def seedWorking (h : DigestState) : WorkingState :=
  { a := h.h0, b := h.h1, c := h.h2, d := h.h3, e := h.h4 }

/-- Accumulate(H, S) (R190). -/
def accumulate (h : DigestState) (s : WorkingState) : DigestState :=
  { h0 := h.h0 + s.a, h1 := h.h1 + s.b, h2 := h.h2 + s.c, h3 := h.h3 + s.d, h4 := h.h4 + s.e }

/-- The digest as a 160-bit value, H[0] ++ H[1] ++ H[2] ++ H[3] ++ H[4], H[0] most significant (R91, R192). -/
def digestValue (h : DigestState) : BitVec 160 := h.h0 ++ h.h1 ++ h.h2 ++ h.h3 ++ h.h4

/-- The four bytes of a Word in order, most significant first: Unpack as a list (R111). -/
def wordBytes (w : Word) : List Byte :=
  let (b0, b1, b2, b3) := unpack w
  [b0, b1, b2, b3]

/-- The digest's 20 bytes in order, the big-endian bytes of H[0], then H[1], …, H[4] (R192, R63). -/
def digestBytes (h : DigestState) : List Byte :=
  wordBytes h.h0 ++ wordBytes h.h1 ++ wordBytes h.h2 ++ wordBytes h.h3 ++ wordBytes h.h4

/-- One hexadecimal digit, 0-9 then A-F (R193). -/
def hexDigit (v : BitVec 4) : Char :=
  if v.toNat < 10 then Char.ofNat (48 + v.toNat) else Char.ofNat (55 + v.toNat)

/-- hex8(w), 8 digits, most significant first (R193). -/
def hex8 (w : Word) : List Char :=
  (List.range 8).map fun k => hexDigit (w.extractLsb' (28 - 4 * k) 4)

/-- Render(H), the 40 hexadecimal digits (R193): a host-side function, not a hardware output. -/
def render (h : DigestState) : List Char :=
  hex8 h.h0 ++ hex8 h.h1 ++ hex8 h.h2 ++ hex8 h.h3 ++ hex8 h.h4

end Sys2Proof.Machine
end

