-- ==== Sys2Proof/Machine/Sequencer.lean ====
section
/-! DEFINITION. The four core steps (44_sequencer.md R211 to R214). The step function runs one only in
its own phase (R210, log 15), so the meanings do not look at the phase. -/

namespace Sys2Proof.Machine

/-- LOAD: load block i and seed the working state (R211). The message of a computation is
MSG[0..N-1], read with MemRead (R112), which needs N ≤ MAX_SIZE (log 13); PadWord is given for words
of the padded message, which needs i < blockCount(N) (R119, log 12). -/
def execLoad (s : State) : Result :=
  if s.cfg.maxSize < s.n then .fault .messageAddressOutOfRange
  else if blockCount s.n.toNat ≤ s.i.toNat then .fault .blockIndexOutOfRange
  else
    .next (setPhase .expand
      { s with
        w := loadSchedule (blockWord s.cfg.lenMode s.n.toNat s.messageByte s.i.toNat) s.w
        ws := seedWorking s.h
        j := 16 })

/-- EXPAND: compute schedule entry j (R212), j in [16, 79] (log 12). -/
def execExpand (s : State) : Result :=
  let k := s.j.toNat
  if k < 16 ∨ 79 < k then .fault .scheduleIndexOutOfRange
  else
    let entry := scheduleStep (s.scheduleWord (k - 3)) (s.scheduleWord (k - 8))
      (s.scheduleWord (k - 14)) (s.scheduleWord (k - 16))
    let s' := { s with w := s.w.setIfInBounds k entry, j := s.j + 1 }
    if s.j + 1 = 80 then .next (setPhase .round { s' with t := 0 }) else .next s'

/-- ROUND: one round of the compressor (R213), t in [0, 79] (log 12). -/
def execRound (s : State) : Result :=
  if 79 < s.t.toNat then .fault .roundIndexOutOfRange
  else
    let s' := { s with
      ws := roundStep s.t.toNat s.ws (s.scheduleWord s.t.toNat)
      t := s.t + 1 }
    if s.t + 1 = 80 then .next (setPhase .accum s') else .next s'

/-- ACCUM: fold the working state into the digest state and move on (R214). -/
def execAccum (s : State) : Result :=
  let s' := { s with h := accumulate s.h s.ws, i := s.i + 1 }
  if s.i + 1 < s.blkcnt then .next (setPhase .load s') else .next (setPhase .done s')

end Sys2Proof.Machine
end

