-- ==== Sys2Proof/WellFormed.lean ====
section
/-! DEFINITION. The checks on syntax: which command words, phase codes and host accesses the spec gives
a meaning to. Written from the field rules (R64, R82, R85, R98), apart from the match and mask rows
the decoder is written from. -/

namespace Sys2Proof

/-- Every term of Instr is well-formed: PUSH_BYTE's operand is any byte (R84), and no other
instruction has an operand. -/
def Instr.wellFormed : Instr → Bool
  | .nop => true
  | .init => true
  | .pushByte _ => true
  | .start => true
  | .load => true
  | .expand => true
  | .round => true
  | .accum => true

/-- The fields of a command word (R82). -/
structure CommandFields where
  opc : BitVec 8
  rsv : BitVec 16
  data : Byte
  deriving DecidableEq, Repr

/-- R82's division of a command word into OPC, RSV and DATA. -/
def CommandFields.ofWord (v : Word) : CommandFields :=
  { opc := v.extractLsb' 24 8, rsv := v.extractLsb' 8 16, data := v.extractLsb' 0 8 }

/-- R82, R85: OPC names a command, RSV is 0, and DATA is 0 unless OPC is PUSH_BYTE's. -/
def CommandFields.wellFormed (f : CommandFields) : Bool :=
  decide (f.opc.toNat ≤ 3) && f.rsv == 0 && (f.opc == 2 || f.data == 0)

/-- R98: codes 1 to 4 select a core step; 0 and 5 enable none, and 6 and 7 are never produced (R87). -/
def phaseCodeWellFormed (code : BitVec 3) : Bool :=
  decide (1 ≤ code.toNat) && decide (code.toNat ≤ 4)

/-- An encoded instruction that stands for one. -/
def Encoded.wellFormed : Encoded → Bool
  | .cmd v => (CommandFields.ofWord v).wellFormed
  | .phase code => phaseCodeWellFormed code

/-- R64: a host access is 32 bits wide, at an offset from REG_BASE that is a multiple of 4 in
[0x00, 0x3C]. -/
def Access.wellFormed (c : Config) (a : Access) : Bool :=
  a.width == 32 && decide (c.regBase ≤ a.addr) && decide (a.addr - c.regBase ≤ 0x3C)
    && (a.addr - c.regBase) % 4 == 0

end Sys2Proof
end

