-- ==== Sys2Proof/Decode.lean ====
section
/-! DEFINITION. The decoder, from the match and mask rows of 30_encoding.md R83 and R98, total on
command words and phase codes; the encoder, from the same tables; and the host's entry point
`decodeTableWord`. -/

namespace Sys2Proof

/-- Why an encoding stands for no instruction. -/
inductive DecodeError where
  /-- a CMD word that matches no row of R83: an illegal command (R85) -/
  | illegalCommand (v : Word)
  /-- phase codes 0 (IDLE) and 5 (DONE), which enable no core step (R98) -/
  | noCoreStep (code : BitVec 3)
  /-- phase codes 6 and 7, which are never produced (R87) -/
  | unusedPhaseCode (code : BitVec 3)
  deriving DecidableEq, Repr

/-- R83: "A word v selects a row when (v ∧ mask) = match." -/
def selectsRow (v mask pattern : Word) : Bool := (v &&& mask) == pattern

/-- R84: PUSH_BYTE's operand is v[7:0]. -/
def commandData (v : Word) : Byte := v.extractLsb' 0 8

/-- The command a CMD word encodes, by the rows of R83; R85 for every other word. -/
def decodeCommand (v : Word) : Except DecodeError Instr :=
  if selectsRow v 0xFFFFFFFF 0x00000000 then .ok .nop
  else if selectsRow v 0xFFFFFFFF 0x01000000 then .ok .init
  else if selectsRow v 0xFFFFFF00 0x02000000 then .ok (.pushByte (commandData v))
  else if selectsRow v 0xFFFFFFFF 0x03000000 then .ok .start
  else .error (.illegalCommand v)

/-- The core step a phase code selects (R98). -/
def decodePhase (code : BitVec 3) : Except DecodeError Instr :=
  if code = 1 then .ok .load
  else if code = 2 then .ok .expand
  else if code = 3 then .ok .round
  else if code = 4 then .ok .accum
  else if code = 0 ∨ code = 5 then .error (.noCoreStep code)
  else .error (.unusedPhaseCode code)

/-- The instruction an encoding stands for. -/
def decode : Encoded → Except DecodeError Instr
  | .cmd v => decodeCommand v
  | .phase code => decodePhase code

/-- The encoding of an instruction: the match word of its row, with PUSH_BYTE's operand in bits 7:0
(R83, R96: "0x02000000 ∨ b"), or its phase code (R98). -/
def encode : Instr → Encoded
  | .nop => .cmd 0x00000000
  | .init => .cmd 0x01000000
  | .pushByte b => .cmd (0x02000000 ||| b.setWidth 32)
  | .start => .cmd 0x03000000
  | .load => .phase 1
  | .expand => .phase 2
  | .round => .phase 3
  | .accum => .phase 4

/-- The format an instruction's table row has: true for CMD, false for PHASE. -/
def isCommand : Instr → Bool
  | .nop => true
  | .init => true
  | .pushByte _ => true
  | .start => true
  | .load => false
  | .expand => false
  | .round => false
  | .accum => false

/-- An instruction as opcode_table.json numbers its bits. The two formats have different lengths, 32
bits and 3 bits, so the length tells them apart (log 4): a row of more than 24 bits is a command
word, a shorter one a phase code in bits 2:0. -/
def encodedOfTableWord (nbits w : Nat) : Encoded :=
  if 24 < nbits then .cmd (BitVec.ofNat 32 w) else .phase (BitVec.ofNat 3 w)

/-- The instruction the decoder reads from a table row's bits. -/
def decodeTableWord (nbits w : Nat) : Option Instr :=
  match decode (encodedOfTableWord nbits w) with
  | .ok i => some i
  | .error _ => none

end Sys2Proof
end

