-- ==== Sys2Proof/Machine/Operands.lean ====
section
/-! DEFINITION. What an access names: the register at a bus address, or why the access has no meaning
(R64, R80); and the offset of each register. -/

namespace Sys2Proof.Machine

/-- The register at a byte offset from REG_BASE (R80). -/
def regAtOffset (off : Nat) : Option Reg :=
  match off with
  | 0x00 => some .cmd
  | 0x04 => some .status
  | 0x08 => some .len
  | 0x0C => some .blkcnt
  | 0x10 => some (.digest 0)
  | 0x14 => some (.digest 1)
  | 0x18 => some (.digest 2)
  | 0x1C => some (.digest 3)
  | 0x20 => some (.digest 4)
  | 0x24 => some .capacity
  | 0x28 => some .config
  | 0x2C => some (.reserved 0)
  | 0x30 => some (.reserved 1)
  | 0x34 => some (.reserved 2)
  | 0x38 => some (.reserved 3)
  | 0x3C => some (.reserved 4)
  | _ => none

/-- The byte offset of a register (R80, R91, R94). -/
def regOffset : Reg → Nat
  | .cmd => 0x00
  | .status => 0x04
  | .len => 0x08
  | .blkcnt => 0x0C
  | .digest k => 0x10 + 4 * k.val
  | .capacity => 0x24
  | .config => 0x28
  | .reserved k => 0x2C + 4 * k.val

/-- The register an access names, or the refusal R64 gives it. DESIGN CHOICE (log 14): the width is
checked first, then the window, then the alignment; the spec refuses all three alike. -/
def accessedRegister (c : Config) (a : Access) : Except Refusal Reg :=
  if a.width ≠ 32 then .error (.accessWidth a.width)
  else if a.addr < c.regBase ∨ c.regBase + 0x3C < a.addr then .error (.outsideWindow a.addr)
  else
    match regAtOffset (a.addr - c.regBase) with
    | some r => .ok r
    | none => .error (.misaligned a.addr)

end Sys2Proof.Machine
end

