-- ==== Sys2Proof/Machine/Registers.lean ====
section
/-! DEFINITION. Register reads (45_host_commands.md R248 to R251), and which action the next turn of the
interleaving asks for (R66, R210, R240). -/

namespace Sys2Proof.Machine

/-- CONFIG: LEN_MODE_BIT in bit 0, 0 for FULL64 and 1 for TRUNC32 (R93). -/
def configWord (c : Config) : Word :=
  match c.lenMode with
  | .full64 => 0
  | .trunc32 => 1

/-- Whether reading a register draws an unspecified Word: DIGESTk while BUSY (R251). -/
def readDraws (r : Reg) (s : State) : Bool :=
  match r with
  | .digest _ => s.busy
  | .cmd => false
  | .status => false
  | .len => false
  | .blkcnt => false
  | .capacity => false
  | .config => false
  | .reserved _ => false

/-- The value a HostRead of a register returns (R81, R89 to R94, R248 to R251). -/
def readValue (r : Reg) (s : State) : Word :=
  match r with
  | .cmd => 0
  | .status => s.status
  | .len => s.n
  | .blkcnt => s.blkcnt
  | .digest k => if s.busy then Config.digestDraw s.drawCount else s.h.word k
  | .capacity => s.cfg.maxSize
  | .config => configWord s.cfg
  | .reserved _ => 0

/-- HostRead of a register: the Host gets the value, and no state of the hardware changes (R66). A draw
advances the model's counter of draws (log 10). -/
def hostRead (r : Reg) (s : State) : State :=
  { s with
    readData := some (readValue r s)
    drawCount := if readDraws r s then s.drawCount + 1 else s.drawCount }

/-- What the next turn does. -/
inductive Action where
  /-- a command (R240) or a core step (R210) -/
  | instr (i : Instr)
  /-- a write to CMD of a word that matches no command (R85) -/
  | illegalCommand
  /-- a HostRead (R248 to R251) -/
  | read (r : Reg)
  /-- a HostWrite to an offset other than CMD (R247) -/
  | ignoredWrite
  /-- a platform reset (R300) -/
  | platformReset
  /-- a turn of the Core in IDLE or DONE, where it has no step (R210) -/
  | waits
  /-- a host access that has no step (R64) -/
  | refuse (r : Refusal)
  deriving DecidableEq, Repr

/-- What a host access does: a write to CMD executes the command it encodes (R81, R240), any other
write is ignored (R94, R95, R247), a read returns a value. -/
def accessAction (c : Config) (a : Access) : Action :=
  match accessedRegister c a with
  | .error r => .refuse r
  | .ok r =>
    match a.dir with
    | .read => .read r
    | .write v =>
      match r with
      | .cmd =>
        match decode (.cmd v) with
        | .ok i => .instr i
        | .error _ => .illegalCommand
      | .status => .ignoredWrite
      | .len => .ignoredWrite
      | .blkcnt => .ignoredWrite
      | .digest _ => .ignoredWrite
      | .capacity => .ignoredWrite
      | .config => .ignoredWrite
      | .reserved _ => .ignoredWrite

/-- What a turn of the Core does: the step its phase code selects, or nothing in IDLE and DONE (R98,
R210). -/
def coreAction (s : State) : Action :=
  match decode (.phase (phaseCode s.phase)) with
  | .ok i => .instr i
  | .error _ => .waits

/-- What the next turn does. When no turn is listed the Host is silent and the turn is the Core's
(fairness, R216; log 3). -/
def nextAction (s : State) : Action :=
  match s.inputs with
  | [] => coreAction s
  | .core :: _ => coreAction s
  | .host a :: _ => accessAction s.cfg a
  | .reset :: _ => .platformReset

/-- An instruction given as table bits becomes what the next turn runs: a command word is written to
CMD by the next host access; a phase code is put into the phase and the next turn is the Core's (log 4).
Codes 6 and 7 are no phase and leave the phase as it is. -/
def placeInstruction (e : Encoded) (s : State) : State :=
  match e with
  | .cmd v => { s with inputs := .host { addr := s.cfg.regBase, width := 32, dir := .write v } :: s.inputs }
  | .phase code =>
    setPhase ((phaseOfCode code).getD s.phase) { s with inputs := .core :: s.inputs }

end Sys2Proof.Machine
end

