-- ==== Sys2Proof/Machine/Step.lean ====
section
/-! DEFINITION. One step of the machine: the next turn of the interleaving, one atomic step (20_memory.md
R67, R68). -/

namespace Sys2Proof.Machine

/-- One step: the turn leaves the interleaving, and what it asks for happens. -/
def step (s : State) : Host.Outcome State Fault Refusal :=
  match nextAction s with
  | .instr i => exec i (takeTurn s)
  | .illegalCommand => .next (raiseError .commandError (takeTurn s))
  | .read r => .next (hostRead r (takeTurn s))
  | .ignoredWrite => .next (takeTurn s)
  | .platformReset => .next (platformReset (takeTurn s))
  | .waits => .next (takeTurn s)
  | .refuse r => .refused r

/-- The state with an instruction of the opcode table as what the very next step runs (log 4). -/
def State.withFetchWord (s : State) (nbits w : Nat) : State :=
  placeInstruction (encodedOfTableWord nbits w) s

end Sys2Proof.Machine
end

