-- ==== Sys2Proof/Machine/HostSyntax.lean ====
section
/-! DEFINITION. The host operations of 30_encoding.md R96 and R97 that are accesses of the hardware,
expanded into accesses. Labels, BNZ and the loop of WAIT_DONE are host control flow, "which the hardware
does not model beyond its accesses" (R96; log 20). -/

namespace Sys2Proof.Machine

/-- One line of a host program without control flow (R96), or a pseudo-operation (R97). -/
inductive HostOp where
  | nop
  | init
  | start
  | pushByte (b : Byte)
  | wr (off : Nat) (v : Word)
  | rd (r : Reg)
  | pushString (bytes : List Byte)
  | readDigest
  deriving DecidableEq, Repr

/-- HostWrite(off, v) (R10). -/
def hostWriteAt (c : Config) (off : Nat) (v : Word) : Access :=
  { addr := c.regBase + off, width := 32, dir := .write v }

/-- HostRead(off) (R10). -/
def hostReadAt (c : Config) (off : Nat) : Access :=
  { addr := c.regBase + off, width := 32, dir := .read }

/-- RD name: a HostRead of the register's offset (R96). -/
def hostReadOf (c : Config) (r : Reg) : Access := hostReadAt c (regOffset r)

/-- PUSH_BYTE b is HostWrite(0x00, 0x02000000 ∨ b) (R96). -/
def pushByteAccess (c : Config) (b : Byte) : Access :=
  hostWriteAt c 0x00 (0x02000000 ||| b.setWidth 32)

/-- The accesses a host operation makes, in order (R96, R97). -/
def hostOpAccesses (c : Config) : HostOp → List Access
  | .nop => [hostWriteAt c 0x00 0x00000000]
  | .init => [hostWriteAt c 0x00 0x01000000]
  | .start => [hostWriteAt c 0x00 0x03000000]
  | .pushByte b => [pushByteAccess c b]
  | .wr off v => [hostWriteAt c off v]
  | .rd r => [hostReadOf c r]
  | .pushString bytes => bytes.map (pushByteAccess c)
  | .readDigest => [0, 1, 2, 3, 4].map fun k => hostReadOf c (.digest k)

end Sys2Proof.Machine
end

