-- ==== Sys2Proof/Machine/Reference.lean ====
section
/-! DEFINITION. SHA-1 as a function of the message (43_accumulator.md R192), written over lists apart
from the machine: the padded byte stream part by part (R114 to R118), its blocks (R120), the schedule by
appending (R142), the compression (R166) and the digest (R192). Also the 16-word circular schedule of
R144. The machine never calls these; statements compare the machine with them. -/

namespace Sys2Proof.Machine.Reference

/-- The 64-bit length field as a number (R118). -/
def lengthValue (mode : LenMode) (n : Nat) : Nat :=
  match mode with
  | .full64 => 8 * n
  | .trunc32 => 8 * n % 2 ^ 32

/-- The 8 bytes of a 64-bit value, most significant first (R117). -/
def bigEndian64 (v : Nat) : List Byte :=
  (List.range 8).map fun p => BitVec.ofNat 8 (v / 256 ^ (7 - p))

/-- How many zero bytes follow the terminator: the fewest that leave the stream 8 bytes short of a
multiple of 64 bytes (R114, R116). -/
def zeroFill (n : Nat) : Nat := (119 - n % 64) % 64

/-- The padded byte stream P: message, terminator, zero fill, length field, "in that order, with no
gaps" (R114). -/
def paddedStream (mode : LenMode) (msg : List Byte) : List Byte :=
  msg ++ 0x80 :: (List.replicate (zeroFill msg.length) 0 ++ bigEndian64 (lengthValue mode msg.length))

/-- The stream in groups of four bytes, each packed big-endian (R61, R65). -/
def packWords : List Byte → List Word
  | b0 :: b1 :: b2 :: b3 :: rest => pack b0 b1 b2 b3 :: packWords rest
  | [] => []
  | [_] => []
  | [_, _] => []
  | [_, _, _] => []

/-- Block(i): 16 consecutive words of the padded message (R120). -/
def blockWords (mode : LenMode) (msg : List Byte) (i : Nat) : List Word :=
  ((packWords (paddedStream mode msg)).drop (16 * i)).take 16

/-- Append `k` schedule entries, in increasing order (R142, R143). -/
def extendSchedule : Nat → List Word → List Word
  | 0, l => l
  | k + 1, l =>
    extendSchedule k (l ++ [scheduleStep (l.getD (l.length - 3) 0) (l.getD (l.length - 8) 0)
      (l.getD (l.length - 14) 0) (l.getD (l.length - 16) 0)])

/-- The 80-word schedule of a block of 16 words (R141, R142). -/
def schedule (block : List Word) : List Word := extendSchedule 64 block

/-- The working state after rounds 0 to k - 1 (R166, R167). -/
def roundsTo (w : List Word) (s : WorkingState) : Nat → WorkingState
  | 0 => s
  | k + 1 => roundStep k (roundsTo w s k) (w.getD k 0)

/-- Compress(H, Block) (R166). -/
def compress (h : DigestState) (block : List Word) : WorkingState :=
  roundsTo (schedule block) (seedWorking h) 80

/-- The DigestState after blocks 0 to k - 1 (R191, R192). -/
def hashBlocks (mode : LenMode) (msg : List Byte) : Nat → DigestState
  | 0 => iv
  | k + 1 =>
    let h := hashBlocks mode msg k
    accumulate h (compress h (blockWords mode msg k))

/-- SHA1(M) (R192). -/
def sha1 (mode : LenMode) (msg : List Byte) : DigestState :=
  hashBlocks mode msg (blockCount msg.length)

/-- The digest of a message, a 160-bit value (R192). -/
def digest (mode : LenMode) (msg : List Byte) : BitVec 160 := digestValue (sha1 mode msg)

/-- The 16-word circular buffer of R144 after it has computed entries 16 to 15 + k. -/
def circularBuffer (b : Vector Word 16) : Nat → Vector Word 16
  | 0 => b
  | k + 1 =>
    let c := circularBuffer b k
    let j := 16 + k
    c.setIfInBounds (j % 16) (scheduleStep (wordAt c ((j - 3) % 16)) (wordAt c ((j - 8) % 16))
      (wordAt c ((j - 14) % 16)) (wordAt c (j % 16)))

/-- The word round t reads from the circular buffer, entry t having been computed just before it (R144). -/
def circularWord (b : Vector Word 16) (t : Nat) : Word :=
  wordAt (circularBuffer b (t - 15)) (t % 16)

end Sys2Proof.Machine.Reference
end

