-- ==== Sys2Proof/Safety.lean ====
section
/-! DEFINITION. What statements are stated in terms of: the message, the reachable-state invariant of
10_state.md R41, the invariant that ties a computation to SHA1 (R41 item 4, R217), the host-visible
registers, and runs. -/

namespace Sys2Proof.Machine

/-- M = (MSG[0], …, MSG[N-1]), the message of a computation (R112). -/
def State.message (s : State) : List Byte := (List.range s.n.toNat).map s.messageByte

/-- R41 items 1, 2, 3 and 5, and the form of MSG that R22 gives: the message bytes have been written,
and every written byte lies below MAX_SIZE. -/
structure State.Inv (s : State) : Prop where
  /-- item 1 -/
  lengthFits : s.n ≤ s.cfg.maxSize
  /-- item 2 -/
  busyBlocks : s.busy = true → s.blkcnt = BitVec.ofNat 32 (blockCount s.n.toNat) ∧ s.i < s.blkcnt
  /-- item 3 -/
  expandIndex : s.phase = .expand → 16 ≤ s.j.toNat ∧ s.j.toNat ≤ 79
  /-- item 3 -/
  roundIndex : s.phase = .round → s.t.toNat ≤ 79
  /-- item 5 -/
  tooLargeIdle : s.errTooLarge = true → s.n = s.cfg.maxSize ∧ s.phase = .idle
  memoryForm : s.msg.wf = true
  messageWritten : ∀ a, a < s.n.toNat → (s.msg.read? a).isSome = true
  memoryBound : ∀ a, s.cfg.maxSize.toNat ≤ a → s.msg.read? a = none

/-- The schedule of the block being processed (R141, R142), as the reference computes it. -/
def State.blockSchedule (s : State) : List Word :=
  Reference.schedule (Reference.blockWords s.cfg.lenMode s.message s.i.toNat)

/-- Where a computation stands, against SHA1: while BUSY, H is the DigestState after the first i blocks;
in EXPAND entries 0 to j-1 of W are the block's schedule; in ROUND all of W is, and S is the state after
t rounds; in ACCUM S is the compression of the block; in DONE, H is SHA1 of the message (R41 item 4). -/
structure State.Computes (s : State) : Prop where
  digestSoFar : s.busy = true →
    s.h = Reference.hashBlocks s.cfg.lenMode s.message s.i.toNat
  expanding : s.phase = .expand → s.ws = seedWorking s.h ∧
    ∀ k, k < s.j.toNat → s.scheduleWord k = s.blockSchedule.getD k 0
  rounding : s.phase = .round →
    s.ws = Reference.roundsTo s.blockSchedule (seedWorking s.h) s.t.toNat ∧
    ∀ k, k < 80 → s.scheduleWord k = s.blockSchedule.getD k 0
  accumulating : s.phase = .accum →
    s.ws = Reference.compress s.h
      (Reference.blockWords s.cfg.lenMode s.message s.i.toNat)
  finished : s.phase = .done → s.blkcnt = BitVec.ofNat 32 (blockCount s.n.toNat) ∧
    s.h = Reference.sha1 s.cfg.lenMode s.message

/-- Two states that the Host cannot tell apart, now or later: they agree on everything but MSG at
addresses N and above and the hidden registers that no later step reads before writing (R25, R26, R29 to
R31, R37, R40, R74). -/
structure SameToHost (s u : State) : Prop where
  cfg : u.cfg = s.cfg
  n : u.n = s.n
  h : u.h = s.h
  blkcnt : u.blkcnt = s.blkcnt
  phase : u.phase = s.phase
  errTooLarge : u.errTooLarge = s.errTooLarge
  errCmd : u.errCmd = s.errCmd
  readData : u.readData = s.readData
  drawCount : u.drawCount = s.drawCount
  inputs : u.inputs = s.inputs
  message : ∀ a, a < s.n.toNat → u.messageByte a = s.messageByte a
  /-- i is read only while BUSY -/
  i : s.busy = true → u.i = s.i
  /-- S is read only in ROUND and ACCUM, and LOAD writes it -/
  ws : s.busy = true → s.phase ≠ .load → u.ws = s.ws
  /-- j is read only in EXPAND -/
  j : s.phase = .expand → u.j = s.j
  /-- in EXPAND, W is read below j only -/
  wExpand : s.phase = .expand → ∀ k, k < s.j.toNat → u.scheduleWord k = s.scheduleWord k
  /-- t is read only in ROUND -/
  t : s.phase = .round → u.t = s.t
  /-- in ROUND, W is read from entry t on -/
  wRound : s.phase = .round → ∀ k, s.t.toNat ≤ k → k < 80 → u.scheduleWord k = s.scheduleWord k

/-- `k` steps, stopping at the first fault or refusal. -/
def runSteps : Nat → State → Result
  | 0, s => .next s
  | k + 1, s =>
    match step s with
    | .next s' => runSteps k s'
    | .fault r => .fault r
    | .refused r => .refused r

end Sys2Proof.Machine
end

