-- ==== Sys2Proof/Certificates/Slice0/Obligations.lean ====
section
/-! DEFINITION. The statements for the provers. Each docstring names the rules of spec/ it formalises. -/

open Sys2Proof Sys2Proof.Machine

/-! ### Encoding -/

/-- R83, R84, R98: decoding and encoding are inverse in both directions, over every command word and
every phase code and every operand byte. -/
def Obligations.DecodeEncodeAgree : Prop :=
  ∀ (e : Encoded) (i : Instr), decode e = .ok i ↔ encode i = e

/-- R85: which words are illegal, what an illegal word does, and that every other word is one of the
commands. -/
def Obligations.IllegalCommandWords : Prop :=
  ∀ v : Word,
    ((∃ err, decodeCommand v = .error err) ↔
      4 ≤ (v.extractLsb' 24 8).toNat ∨
      ((v.extractLsb' 24 8 = 0 ∨ v.extractLsb' 24 8 = 1 ∨ v.extractLsb' 24 8 = 3) ∧
        v.extractLsb' 0 24 ≠ 0) ∨
      (v.extractLsb' 24 8 = 2 ∧ v.extractLsb' 8 16 ≠ 0)) ∧
    (∀ i, decodeCommand v = .ok i → i = .nop ∨ i = .init ∨ (∃ b, i = .pushByte b) ∨ i = .start) ∧
    (∀ (s : State) (rest : List Turn) (err : DecodeError), decodeCommand v = .error err →
      s.inputs = .host (hostWriteAt s.cfg 0x00 v) :: rest →
      step s = .next { s with errCmd := true, inputs := rest })

/-- R83: "A word v selects a row when (v ∧ mask) = match. At most one row matches any word." The decoder
answers a command exactly when that command's row selects the word, whatever the order of its tests, and
an error exactly when no row does. -/
def Obligations.CommandRowsDisjoint : Prop :=
  (∀ v mask pattern : Word, selectsRow v mask pattern = true ↔ v &&& mask = pattern) ∧
  ∀ v : Word,
    (decodeCommand v = .ok .nop ↔ selectsRow v 0xFFFFFFFF 0x00000000 = true) ∧
    (decodeCommand v = .ok .init ↔ selectsRow v 0xFFFFFFFF 0x01000000 = true) ∧
    (∀ b, decodeCommand v = .ok (.pushByte b) ↔
      selectsRow v 0xFFFFFF00 0x02000000 = true ∧ b = v.extractLsb' 0 8) ∧
    (decodeCommand v = .ok .start ↔ selectsRow v 0xFFFFFFFF 0x03000000 = true) ∧
    ((∃ err, decodeCommand v = .error err) ↔
      selectsRow v 0xFFFFFFFF 0x00000000 = false ∧ selectsRow v 0xFFFFFFFF 0x01000000 = false ∧
      selectsRow v 0xFFFFFF00 0x02000000 = false ∧ selectsRow v 0xFFFFFFFF 0x03000000 = false) ∧
    ([(0xFFFFFFFF, 0x00000000), (0xFFFFFFFF, 0x01000000), (0xFFFFFF00, 0x02000000),
      (0xFFFFFFFF, 0x03000000)] : List (Word × Word)).Pairwise
      fun x y => ¬ (selectsRow v x.1 x.2 = true ∧ selectsRow v y.1 y.2 = true)

/-- R82, R85, R98: the field checks accept exactly the encodings the decoder reads. -/
def Obligations.WellFormedExactlyDecodable : Prop :=
  ∀ e : Encoded, e.wellFormed = true ↔ ∃ i, decode e = .ok i

/-- Words written out from R82, R83 and R98, one for each instruction, and three illegal ones. -/
def Obligations.SampleWordsDecode : Prop :=
  decode (.cmd 0x00000000) = .ok .nop ∧ decode (.cmd 0x01000000) = .ok .init ∧
  decode (.cmd 0x02000061) = .ok (.pushByte 0x61) ∧ decode (.cmd 0x03000000) = .ok .start ∧
  decode (.phase 1) = .ok .load ∧ decode (.phase 2) = .ok .expand ∧
  decode (.phase 3) = .ok .round ∧ decode (.phase 4) = .ok .accum ∧
  decode (.cmd 0x00000100) = .error (.illegalCommand 0x00000100) ∧
  decode (.cmd 0x02010061) = .error (.illegalCommand 0x02010061) ∧
  decode (.cmd 0x04000000) = .error (.illegalCommand 0x04000000)

/-! ### The step and the register window -/

/-- R81, R240: a HostWrite to CMD runs the command the word encodes, in that one step. -/
def Obligations.StepRunsWrittenCommand : Prop :=
  ∀ (s : State) (v : Word) (i : Instr) (rest : List Turn),
    s.inputs = .host (hostWriteAt s.cfg 0x00 v) :: rest → decode (.cmd v) = .ok i →
    step s = exec i { s with inputs := rest }

/-- R98, R210: a turn of the Core, listed or (log 3) after the last listed turn, runs the step its phase
code selects. -/
def Obligations.StepRunsCoreStep : Prop :=
  ∀ (s : State) (i : Instr), (s.inputs = [] ∨ ∃ rest, s.inputs = .core :: rest) →
    decode (.phase (phaseCode s.phase)) = .ok i →
    step s = exec i { s with inputs := s.inputs.tail }

/-- R210: the Core has a step exactly while BUSY, it is the one of its phase, and in IDLE and DONE only
a host access (or a platform reset, R300) moves the phase. -/
def Obligations.CoreStepExactlyWhileBusy : Prop :=
  ∀ s : State,
    (s.busy = true ↔ ∃ i, coreAction s = .instr i) ∧
    (s.phase = .load → coreAction s = .instr .load) ∧
    (s.phase = .expand → coreAction s = .instr .expand) ∧
    (s.phase = .round → coreAction s = .instr .round) ∧
    (s.phase = .accum → coreAction s = .instr .accum) ∧
    (∀ s', s.busy = false → step s = .next s' → s'.phase ≠ s.phase →
      ∃ turn rest, s.inputs = turn :: rest ∧ ((∃ a, turn = .host a) ∨ turn = .reset))

/-- R64: an access that is not 32 bits wide at a multiple of 4 in [0x00, 0x3C] is refused, and no other
access is; in the states of R41 every other access has a step. R64's own refusal sentence names the width
and the alignment; that an aligned address outside the window is refused as well is the model's choice
(log 14), and so is the stop that the premise of the invariant rules out (log 13). -/
def Obligations.AccessesWithoutMeaningRefused : Prop :=
  ∀ (s : State) (a : Access) (rest : List Turn), s.inputs = .host a :: rest →
    ((∃ r, step s = .refused r) ↔
      ¬ (a.width = 32 ∧ s.cfg.regBase ≤ a.addr ∧ a.addr - s.cfg.regBase ≤ 0x3C ∧
        (a.addr - s.cfg.regBase) % 4 = 0)) ∧
    (s.Inv → a.width = 32 → s.cfg.regBase ≤ a.addr → a.addr - s.cfg.regBase ≤ 0x3C →
      (a.addr - s.cfg.regBase) % 4 = 0 → ∃ s', step s = .next s')

/-- R247: a HostWrite to an offset other than 0x00 changes no state and raises no error. -/
def Obligations.OtherWritesIgnored : Prop :=
  ∀ (s : State) (off : Nat) (v : Word) (rest : List Turn),
    off ≠ 0 → off ≤ 0x3C → off % 4 = 0 →
    s.inputs = .host (hostWriteAt s.cfg off v) :: rest → step s = .next { s with inputs := rest }

/-- R249: the exact reads, in every phase; nothing else changes. -/
def Obligations.ExactRegisterReads : Prop :=
  ∀ (s : State) (off : Nat) (rest : List Turn),
    s.inputs = .host (hostReadAt s.cfg off) :: rest →
    (off = 0x08 → step s = .next { s with inputs := rest, readData := some s.n }) ∧
    (off = 0x0C → step s = .next { s with inputs := rest, readData := some s.blkcnt }) ∧
    (off = 0x24 → step s = .next { s with inputs := rest, readData := some s.cfg.maxSize }) ∧
    (off = 0x28 → step s = .next { s with
      inputs := rest, readData := some (if s.cfg.lenMode = .trunc32 then 1 else 0) }) ∧
    (off = 0x00 ∨ off = 0x2C ∨ off = 0x30 ∨ off = 0x34 ∨ off = 0x38 ∨ off = 0x3C →
      step s = .next { s with inputs := rest, readData := some 0 })

/-- R248, with R86's fields: HostRead(0x04) returns STATUS, and changes nothing, so it clears no flag. -/
def Obligations.StatusRead : Prop :=
  ∀ (s : State) (rest : List Turn), s.inputs = .host (hostReadAt s.cfg 0x04) :: rest →
    ∃ v : Word, step s = .next { s with inputs := rest, readData := some v } ∧
      v.toNat = s.busy.toNat + 2 * (decide (s.phase = .done)).toNat + 4 * s.errTooLarge.toNat
        + 8 * s.errCmd.toNat + 16 * (phaseCode s.phase).toNat

/-- R87: the table of phase codes, BUSY, DONE and STATUS without error flags; codes 6 and 7 are never
produced. -/
def Obligations.PhaseCodes : Prop :=
  (∀ s : State, s.errTooLarge = false → s.errCmd = false →
    (s.phase = .idle → s.busy = false ∧ s.isDone = false ∧ s.status = 0x00000000) ∧
    (s.phase = .load → s.busy = true ∧ s.isDone = false ∧ s.status = 0x00000011) ∧
    (s.phase = .expand → s.busy = true ∧ s.isDone = false ∧ s.status = 0x00000021) ∧
    (s.phase = .round → s.busy = true ∧ s.isDone = false ∧ s.status = 0x00000031) ∧
    (s.phase = .accum → s.busy = true ∧ s.isDone = false ∧ s.status = 0x00000041) ∧
    (s.phase = .done → s.busy = false ∧ s.isDone = true ∧ s.status = 0x00000052)) ∧
  (∀ s : State, s.status.extractLsb' 4 3 ≠ 6 ∧ s.status.extractLsb' 4 3 ≠ 7)

/-- R91, R250, R251: DIGESTk reads H[k] while not BUSY; while BUSY it returns the next free value, of
which nothing is known (log 10), and H stays as it is. -/
def Obligations.DigestReads : Prop :=
  ∀ (s : State) (k : Fin 5) (rest : List Turn),
    s.inputs = .host (hostReadAt s.cfg (0x10 + 4 * k.val)) :: rest →
    (s.busy = false → step s = .next { s with
      inputs := rest, readData := some ([s.h.h0, s.h.h1, s.h.h2, s.h.h3, s.h.h4].getD k.val 0) }) ∧
    (s.busy = true → step s = .next { s with
      inputs := rest
      readData := some (Config.digestDraw s.drawCount)
      drawCount := s.drawCount + 1 })

/-- R66: no access but a HostWrite to CMD has a side effect, and a read repeated at once gives the Host the
same value: every register in every phase, but for DIGEST while BUSY, whose reads are draws (R251). -/
def Obligations.OnlyCommandWritesHaveEffects : Prop :=
  ∀ (s s' : State) (a : Access) (rest : List Turn), s.inputs = .host a :: rest →
    step s = .next s' → (∀ v, a ≠ hostWriteAt s.cfg 0x00 v) →
    s' = { s with inputs := rest, readData := s'.readData, drawCount := s'.drawCount } ∧
    (∀ s'' rest', rest = .host a :: rest' →
      (s.busy = false ∨ ∀ k : Fin 5, a ≠ hostReadAt s.cfg (0x10 + 4 * k.val)) →
      step s' = .next s'' → s''.readData = s'.readData)

/-! ### Reset -/

/-- R300: a platform reset in any state. The unspecified elements (S, W, i, j, t) have no clause; that MSG
then lists no written byte is the model's form of "unspecified" (log 5), and the IV's values are general
knowledge in R27 itself (log 8). -/
def Obligations.PlatformResetValues : Prop :=
  ∀ (s : State) (rest : List Turn), s.inputs = .reset :: rest →
    ∃ u, step s = .next u ∧ u.n = 0 ∧
      u.h = ⟨0x67452301, 0xEFCDAB89, 0x98BADCFE, 0x10325476, 0xC3D2E1F0⟩ ∧
      u.blkcnt = 0 ∧ u.phase = .idle ∧ u.errTooLarge = false ∧ u.errCmd = false ∧ u.status = 0 ∧
      (∀ a, u.msg.read? a = none) ∧ u.cfg = s.cfg ∧ u.inputs = rest

/-- R80, R300: the value every register of the window reads right after reset, for every parameter
value, and the default LEN_MODE (R5). The IV's values are general knowledge in R27 itself (log 8). -/
def Obligations.ResetRegisterValues : Prop :=
  ∀ c : Config,
    (∀ r, readValue r (State.resetWith c) =
      match r with
      | .cmd => 0
      | .status => 0
      | .len => 0
      | .blkcnt => 0
      | .digest k => [0x67452301, 0xEFCDAB89, 0x98BADCFE, 0x10325476, 0xC3D2E1F0].getD k.val 0
      | .capacity => c.maxSize
      | .config => if c.lenMode = .trunc32 then 1 else 0
      | .reserved _ => 0) ∧
    State.reset.cfg.lenMode = .full64

/-- R301: reset and INIT reach the same host-visible state; INIT leaves MSG, S, W, i, j and t unchanged;
the difference is not observable, now or later (HiddenStateNeverObservable). The IV's values are general
knowledge in R27 itself (log 8). -/
def Obligations.ResetAndInitIndistinguishable : Prop :=
  ∀ s : State, ∃ u, exec .init s = .next u ∧
    (∀ x ∈ [u, platformReset s], x.status = 0 ∧ readValue .len x = 0 ∧ readValue .blkcnt x = 0 ∧
      ∀ k, readValue (.digest k) x
        = [0x67452301, 0xEFCDAB89, 0x98BADCFE, 0x10325476, 0xC3D2E1F0].getD k.val 0) ∧
    u.msg = s.msg ∧ u.ws = s.ws ∧ u.w = s.w ∧ u.i = s.i ∧ u.j = s.j ∧ u.t = s.t ∧
    SameToHost u (platformReset s) ∧ SameToHost (platformReset s) u

/-! ### Host commands -/

/-- R241: NOP changes nothing, in any phase. -/
def Obligations.NopChangesNothing : Prop :=
  ∀ s : State, exec .nop s = .next s

/-- R242: INIT, accepted in every phase; everything it does not name is unchanged. The IV's values are
general knowledge in R27 itself (log 8). -/
def Obligations.InitResult : Prop :=
  ∀ s : State, ∃ u, exec .init s = .next u ∧ u.status = 0 ∧
    u = { s with
      n := 0, blkcnt := 0, phase := .idle, errTooLarge := false, errCmd := false
      h := ⟨0x67452301, 0xEFCDAB89, 0x98BADCFE, 0x10325476, 0xC3D2E1F0⟩ }

/-- R243: PUSH_BYTE and START while BUSY raise CommandError and change nothing else. -/
def Obligations.BusyRejection : Prop :=
  ∀ s : State, s.busy = true →
    (∀ b, exec (.pushByte b) s = .next { s with errCmd := true }) ∧
    exec .start s = .next { s with errCmd := true }

/-- R244: PUSH_BYTE b in every case; in the accepted one, the byte stored at address N, every other
byte of MSG and every other register unchanged, and the message longer by b. -/
def Obligations.PushByteResult : Prop :=
  ∀ (s : State) (b : Byte),
    (s.busy = true → exec (.pushByte b) s = .next { s with errCmd := true }) ∧
    (s.busy = false → s.n = s.cfg.maxSize →
      exec (.pushByte b) s = .next { s with errTooLarge := true, phase := .idle }) ∧
    (s.busy = false → s.n < s.cfg.maxSize →
      ∃ u, exec (.pushByte b) s = .next u ∧ u.n.toNat = s.n.toNat + 1 ∧
        u.msg.read? s.n.toNat = some b ∧
        (∀ a, a ≠ s.n.toNat → u.msg.read? a = s.msg.read? a) ∧
        u.message = s.message ++ [b] ∧
        u = { s with msg := u.msg, n := u.n, phase := .idle })

/-- R245: START in every case; everything it does not name is unchanged. -/
def Obligations.StartResult : Prop :=
  ∀ s : State,
    (s.busy = true ∨ s.errTooLarge = true → exec .start s = .next { s with errCmd := true }) ∧
    (s.busy = false → s.errTooLarge = false →
      ∃ u, exec .start s = .next u ∧ u.blkcnt.toNat = (s.n.toNat + 8) / 64 + 1 ∧
        u = { s with
          blkcnt := u.blkcnt, i := 0, phase := .load
          h := iv })

/-- R246: while ERR_TOO_LARGE is set START is refused, and no step but INIT and reset ends that or
changes H. -/
def Obligations.NoDigestAfterTooLarge : Prop :=
  ∀ s : State, s.errTooLarge = true →
    exec .start s = .next { s with errCmd := true } ∧
    (s.Inv → ∀ s', step s = .next s' →
      nextAction s = .instr .init ∨ nextAction s = .platformReset ∨
      (s'.errTooLarge = true ∧ s'.phase = .idle ∧ s'.h = s.h ∧ s'.blkcnt = s.blkcnt))

/-! ### Core steps -/

/-- R211: LOAD puts the 16 words of block i of the padded message into W[0..15], keeps W[16..79], seeds S
from H, and changes nothing else but j and the phase. Its operands are those of R41 items 1 and 2. -/
def Obligations.LoadResult : Prop :=
  ∀ s : State, s.n ≤ s.cfg.maxSize → s.i.toNat < blockCount s.n.toNat →
    ∃ u, exec .load s = .next u ∧
      (∀ k, k < 16 → u.scheduleWord k =
        (Reference.blockWords s.cfg.lenMode s.message s.i.toNat).getD k 0) ∧
      (∀ k, 16 ≤ k → u.scheduleWord k = s.scheduleWord k) ∧
      u = { s with
        w := u.w, ws := ⟨s.h.h0, s.h.h1, s.h.h2, s.h.h3, s.h.h4⟩, j := 16, phase := .expand }

/-- R212: EXPAND, for j in [16, 79]: the new entry, every other entry and register unchanged, and the
move to ROUND after entry 79. -/
def Obligations.ExpandResult : Prop :=
  ∀ s : State, 16 ≤ s.j.toNat → s.j.toNat ≤ 79 →
    ∃ u, exec .expand s = .next u ∧
      u.scheduleWord s.j.toNat = rotateLeft 1 (s.scheduleWord (s.j.toNat - 3) ^^^
        s.scheduleWord (s.j.toNat - 8) ^^^ s.scheduleWord (s.j.toNat - 14) ^^^
        s.scheduleWord (s.j.toNat - 16)) ∧
      (∀ k, k ≠ s.j.toNat → u.scheduleWord k = s.scheduleWord k) ∧
      u.j.toNat = s.j.toNat + 1 ∧
      (s.j.toNat < 79 → u = { s with w := u.w, j := u.j }) ∧
      (s.j.toNat = 79 → u = { s with w := u.w, j := u.j, t := 0, phase := .round })

/-- R213 and R165: ROUND, for t in [0, 79]: the new working state from the old one all at once, and the
move to ACCUM after round 79. -/
def Obligations.RoundResult : Prop :=
  ∀ s : State, s.t.toNat ≤ 79 →
    ∃ u, exec .round s = .next u ∧
      u.ws.a = rotateLeft 5 s.ws.a + roundFunction s.t.toNat s.ws.b s.ws.c s.ws.d + s.ws.e
        + roundConstant s.t.toNat + s.scheduleWord s.t.toNat ∧
      u.ws.b = s.ws.a ∧ u.ws.c = rotateLeft 30 s.ws.b ∧ u.ws.d = s.ws.c ∧ u.ws.e = s.ws.d ∧
      u.t.toNat = s.t.toNat + 1 ∧
      (s.t.toNat < 79 → u = { s with ws := u.ws, t := u.t }) ∧
      (s.t.toNat = 79 → u = { s with ws := u.ws, t := u.t, phase := .accum })

/-- R214 and R190: ACCUM, in every state. -/
def Obligations.AccumResult : Prop :=
  ∀ s : State, ∃ u, exec .accum s = .next u ∧
    u.h.h0 = s.h.h0 + s.ws.a ∧ u.h.h1 = s.h.h1 + s.ws.b ∧ u.h.h2 = s.h.h2 + s.ws.c ∧
    u.h.h3 = s.h.h3 + s.ws.d ∧ u.h.h4 = s.h.h4 + s.ws.e ∧
    (s.i + 1 < s.blkcnt → u = { s with h := u.h, i := s.i + 1, phase := .load }) ∧
    (s.blkcnt ≤ s.i + 1 → u = { s with h := u.h, i := s.i + 1, phase := .done })

/-- The model's stops (logs 12 and 13): exactly the operands outside the ranges of R41 items 1 to 3;
every other instruction and operand runs. -/
def Obligations.WhereInstructionsStop : Prop :=
  ∀ s : State,
    ((∃ f, exec .load s = .fault f) ↔
      s.cfg.maxSize < s.n ∨ blockCount s.n.toNat ≤ s.i.toNat) ∧
    ((∃ f, exec .expand s = .fault f) ↔ s.j.toNat < 16 ∨ 79 < s.j.toNat) ∧
    ((∃ f, exec .round s = .fault f) ↔ 79 < s.t.toNat) ∧
    (∀ b, (∃ f, exec (.pushByte b) s = .fault f) ↔ s.busy = false ∧ s.cfg.maxSize < s.n) ∧
    (∀ i f, exec i s = .fault f → i = .load ∨ i = .expand ∨ i = .round ∨ ∃ b, i = .pushByte b) ∧
    (∀ i r, exec i s ≠ .refused r)

/-! ### Frames -/

/-- What a host command leaves unchanged (R241 to R245): S, W, j and t always; every byte of MSG but the
one PUSH_BYTE stores at address N; N but for INIT and PUSH_BYTE; H and BLKCNT but for INIT and START; i but
for START. -/
def Obligations.CommandFrame : Prop :=
  ∀ (i : Instr) (s u : State), isCommand i = true → exec i s = .next u →
    u.ws = s.ws ∧ u.w = s.w ∧ u.j = s.j ∧ u.t = s.t ∧ u.cfg = s.cfg ∧ u.readData = s.readData ∧
    u.drawCount = s.drawCount ∧ u.resetCount = s.resetCount ∧ u.inputs = s.inputs ∧
    (∀ a, ((∃ b, i = .pushByte b) → a ≠ s.n.toNat) → u.messageByte a = s.messageByte a) ∧
    (i ≠ .init → (∀ b, i ≠ .pushByte b) → u.n = s.n) ∧
    (i ≠ .init → i ≠ .start → u.h = s.h ∧ u.blkcnt = s.blkcnt) ∧
    (i ≠ .start → u.i = s.i)

/-- What a core step leaves unchanged (R211 to R214): every byte of MSG, N, BLKCNT and both error flags
always; H and i but for ACCUM; S but for LOAD and ROUND; W and j but for LOAD and EXPAND; t but for EXPAND
and ROUND. -/
def Obligations.CoreStepFrame : Prop :=
  ∀ (i : Instr) (s u : State), isCommand i = false → exec i s = .next u →
    (∀ a, u.messageByte a = s.messageByte a) ∧ u.msg = s.msg ∧ u.n = s.n ∧ u.blkcnt = s.blkcnt ∧
    u.errTooLarge = s.errTooLarge ∧ u.errCmd = s.errCmd ∧ u.cfg = s.cfg ∧
    u.readData = s.readData ∧ u.drawCount = s.drawCount ∧ u.resetCount = s.resetCount ∧
    u.inputs = s.inputs ∧
    (i ≠ .accum → u.h = s.h ∧ u.i = s.i) ∧
    (i ≠ .load → i ≠ .round → u.ws = s.ws) ∧
    (i ≠ .load → i ≠ .expand → u.w = s.w ∧ u.j = s.j) ∧
    (i ≠ .expand → i ≠ .round → u.t = s.t)

/-! ### Padder, schedule and round functions -/

/-- R114 and R119: the padded stream made part by part has length 64 · blockCount(n), and its byte k is
PadByte(k). -/
def Obligations.PaddedStreamByBytes : Prop :=
  ∀ (mode : LenMode) (msg : List Byte),
    (Reference.paddedStream mode msg).length = 64 * blockCount msg.length ∧
    ∀ k, k < 64 * blockCount msg.length →
      (Reference.paddedStream mode msg).getD k 0
        = padByte mode msg.length (fun a => msg.getD a 0) k

/-- R113, R114: blockCount is the ceiling of RS's formula, and the padded length is the least multiple of
64 that is at least n + 9, its zero fill ending at 448 modulo 512 bits. -/
def Obligations.BlockCountIsLeast : Prop :=
  ∀ n : Nat, 512 * blockCount n < 8 * n + 1 + 64 + 512 ∧ 8 * n + 1 + 64 ≤ 512 * blockCount n ∧
    n + 9 ≤ paddedLength n ∧ paddedLength n < n + 9 + 64 ∧ paddedLength n % 64 = 0 ∧
    8 * (paddedLength n - 8) % 512 = 448

/-- R118: LENFIELD in both modes, and that they agree whenever 8n < 2^32. What TRUNC32 leaves in the upper
half is the spec's reading (log 16). -/
def Obligations.LengthFieldModes : Prop :=
  ∀ n : Nat, n < 2 ^ 32 →
    (lengthField .full64 n).toNat = 8 * n ∧ (lengthField .trunc32 n).toNat = 8 * n % 2 ^ 32 ∧
    (8 * n < 2 ^ 32 → lengthField .full64 n = lengthField .trunc32 n)

/-- R121: where the terminator and the length field lie. -/
def Obligations.SpillIntoExtraBlock : Prop :=
  ∀ (mode : LenMode) (n : Nat) (m : Nat → Byte),
    padByte mode n m n = 0x80 ∧
    (56 ≤ n % 64 → blockCount n = n / 64 + 2 ∧ n < 64 * (n / 64 + 1) ∧
      paddedLength n - 8 = 64 * (n / 64 + 1) + 56 ∧
      ∀ k, 64 * (n / 64 + 1) ≤ k → k < paddedLength n - 8 → padByte mode n m k = 0) ∧
    (n % 64 ≤ 55 → blockCount n = n / 64 + 1 ∧ 64 * (n / 64) ≤ n ∧
      paddedLength n - 8 = 64 * (n / 64) + 56 ∧ n < paddedLength n - 8)

/-- R110, R111: Pack is the concatenation of its bytes, and Unpack is its inverse. -/
def Obligations.PackUnpackInverse : Prop :=
  (∀ w : Word, pack (unpack w).1 (unpack w).2.1 (unpack w).2.2.1 (unpack w).2.2.2 = w) ∧
  (∀ b0 b1 b2 b3 : Byte, unpack (pack b0 b1 b2 b3) = (b0, b1, b2, b3) ∧
    pack b0 b1 b2 b3 = b0 ++ b1 ++ b2 ++ b3)

/-- R140: RotateLeft bit by bit. -/
def Obligations.RotateLeftByBits : Prop :=
  ∀ (k : Nat) (x : Word) (b : Nat), 1 ≤ k → k ≤ 31 → b < 32 →
    (rotateLeft k x).getLsbD b = x.getLsbD ((b + (32 - k)) % 32)

/-- R142, R145: the schedule the reference appends entry by entry satisfies the recurrence at every j, and
keeps the block's 16 words. -/
def Obligations.ScheduleRecurrence : Prop :=
  ∀ block : List Word, block.length = 16 →
    (Reference.schedule block).length = 80 ∧
    (∀ k, k < 16 → (Reference.schedule block).getD k 0 = block.getD k 0) ∧
    (∀ j, 16 ≤ j → j ≤ 79 → (Reference.schedule block).getD j 0 =
      rotateLeft 1 ((Reference.schedule block).getD (j - 3) 0 ^^^
        (Reference.schedule block).getD (j - 8) 0 ^^^ (Reference.schedule block).getD (j - 14) 0 ^^^
        (Reference.schedule block).getD (j - 16) 0))

/-- R144: the 16-word circular buffer gives round t the word the 80-word schedule holds. -/
def Obligations.CircularScheduleEquivalent : Prop :=
  ∀ (block : Vector Word 16) (t : Nat), t < 80 →
    Reference.circularWord block t = (Reference.schedule block.toList).getD t 0

/-- R160 to R163: f_t bit by bit. -/
def Obligations.RoundFunctionByBits : Prop :=
  ∀ (t : Nat) (b c d : Word) (k : Nat), t ≤ 79 → k < 32 →
    (t ≤ 19 → (roundFunction t b c d).getLsbD k
      = if b.getLsbD k then c.getLsbD k else d.getLsbD k) ∧
    (40 ≤ t → t ≤ 59 → (roundFunction t b c d).getLsbD k
      = decide (2 ≤ (b.getLsbD k).toNat + (c.getLsbD k).toNat + (d.getLsbD k).toNat)) ∧
    ((20 ≤ t ∧ t ≤ 39) ∨ 60 ≤ t → (roundFunction t b c d).getLsbD k
      = decide (((b.getLsbD k).toNat + (c.getLsbD k).toNat + (d.getLsbD k).toNat) % 2 = 1))

/-- R161, R163: the other forms of Ch and Maj that the spec derives. -/
def Obligations.ChMajOtherForms : Prop :=
  ∀ b c d : Word, ch b c d = ((b &&& c) ^^^ (~~~b &&& d)) ∧ ch b c d = (b &&& c) + (~~~b &&& d) ∧
    maj b c d = ((b &&& c) ^^^ (b &&& d) ^^^ (c &&& d))

/-- R164: K_t by the range of t. -/
def Obligations.RoundConstants : Prop :=
  ∀ t : Nat, (t ≤ 19 → roundConstant t = 0x5A827999) ∧
    (20 ≤ t → t ≤ 39 → roundConstant t = 0x6ED9EBA1) ∧
    (40 ≤ t → t ≤ 59 → roundConstant t = 0x8F1BBCDC) ∧
    (60 ≤ t → t ≤ 79 → roundConstant t = 0xCA62C1D6)

/-- R63, R91, R192, R193, R194: the forms of a digest. It is the 160-bit value H[0] ++ … ++ H[4], which is
what the Host gets as DIGEST0 ++ … ++ DIGEST4 while not BUSY; its 20 bytes in order, byte 4k + m being
H[k][31-8m : 24-8m], are that value's bytes, most significant first; and it renders as 40 digits out of 0-9
and A-F, no two digests alike. -/
def Obligations.RenderFaithful : Prop :=
  ∀ h : DigestState,
    (∀ s : State, s.h = h → s.busy = false → digestValue h = readValue (.digest 0) s ++
      readValue (.digest 1) s ++ readValue (.digest 2) s ++ readValue (.digest 3) s ++
      readValue (.digest 4) s) ∧
    (digestBytes h).length = 20 ∧
    (∀ (k : Fin 5) (m : Nat), m < 4 →
      (digestBytes h).getD (4 * k.val + m) 0 = (h.word k).extractLsb' (24 - 8 * m) 8) ∧
    (∀ n, n < 20 → (digestBytes h).getD n 0 = (digestValue h).extractLsb' (152 - 8 * n) 8) ∧
    (render h).length = 40 ∧
    (∀ c ∈ render h, c ∈ "0123456789ABCDEF".toList) ∧ ∀ g : DigestState, render g = render h → g = h

/-! ### Invariants and whole-machine rules -/

/-- R41 at reset, for every parameter value, and R217's invariant there. -/
def Obligations.ResetMeetsInvariants : Prop :=
  ∀ c : Config, (State.resetWith c).Inv ∧ (State.resetWith c).Computes

/-- R41 items 1, 2, 3, 5 (with the form of MSG): every step keeps them, in every interleaving. -/
def Obligations.StepKeepsInvariant : Prop :=
  ∀ s s' : State, s.Inv → step s = .next s' → s'.Inv

/-- R41 item 4 and R191, R192: every step keeps the tie between the registers and SHA1 of the message, so
that DONE always means that H is SHA1(MSG[0..N-1]). -/
def Obligations.StepKeepsComputation : Prop :=
  ∀ s s' : State, s.Inv → s.Computes → step s = .next s' → s'.Computes

/-- R41: in the states of the invariant no step faults (the model's faults, logs 12 and 13, are never
reached), and a step is refused only for an access of R64 (log 14). -/
def Obligations.InvariantStatesNeverStop : Prop :=
  ∀ s : State, s.Inv →
    (∀ f, step s ≠ .fault f) ∧
    (∀ r, step s = .refused r → ∃ a rest, s.inputs = .host a :: rest ∧ a.wellFormed s.cfg = false)

/-- R88: the legal STATUS values, in the states of R41. -/
def Obligations.StatusLegal : Prop :=
  ∀ s : State, s.Inv →
    ¬ (s.status.getLsbD 0 = true ∧ s.status.getLsbD 1 = true) ∧
    (s.status.getLsbD 0 = true → s.status.getLsbD 2 = false) ∧
    (s.status.extractLsb' 4 3).toNat ≤ 5 ∧ s.status.toNat < 128

/-- R37, R40, R74: hidden state that no rule reads before writing it has no effect on anything the Host
will ever see: two states that differ only there step to two such states. That the two also get the same
Word from a DIGEST read while BUSY is the model's choice (log 10): the draws are a function of the count of
draws, on which the two states agree, where R251 says only that each read is a draw under no law. -/
def Obligations.HiddenStateNeverObservable : Prop :=
  ∀ s u s' : State, SameToHost s u → step s = .next s' → ∃ u', step u = .next u' ∧ SameToHost s' u'

/-- R40: two such states read alike at every register. For DIGEST while BUSY that is the model's choice
(log 10): equal counts of draws give equal draws, where R251 gives them no law. -/
def Obligations.SameToHostReadsAlike : Prop :=
  ∀ s u : State, SameToHost s u → ∀ r, readValue r u = readValue r s

/-- R36, R71: while BUSY, no step but one that ends the computation by INIT or reset (to IDLE) changes the
message, N or BLKCNT. -/
def Obligations.MessageFixedWhileBusy : Prop :=
  ∀ s s' : State, s.busy = true → step s = .next s' →
    (nextAction s ≠ .instr .init → nextAction s ≠ .platformReset →
      s'.message = s.message ∧ s'.n = s.n ∧ s'.blkcnt = s.blkcnt ∧ s'.phase ≠ .idle) ∧
    (nextAction s = .instr .init ∨ nextAction s = .platformReset → s'.phase = .idle)

/-- R24: what writes H, and with what. -/
def Obligations.DigestStateWriters : Prop :=
  ∀ s s' : State, step s = .next s' →
    (s'.h = s.h) ∨
    ((nextAction s = .instr .init ∨ nextAction s = .instr .start ∨ nextAction s = .platformReset) ∧
      s'.h = iv) ∨
    (nextAction s = .instr .accum ∧ s'.h = accumulate s.h s.ws)

/-- R277: only INIT and reset clear an error flag, and they clear both; a further error leaves a set flag
set, and an error of the other kind sets the other flag too (an error that sets one flag keeps both that
were set). -/
def Obligations.ErrorFlagsSticky : Prop :=
  ∀ s s' : State, step s = .next s' →
    (nextAction s = .instr .init ∨ nextAction s = .platformReset →
      s'.errTooLarge = false ∧ s'.errCmd = false) ∧
    (nextAction s ≠ .instr .init → nextAction s ≠ .platformReset →
      (s.errTooLarge = true → s'.errTooLarge = true) ∧ (s.errCmd = true → s'.errCmd = true)) ∧
    (nextAction s = .illegalCommand ∨
      ((nextAction s = .instr .start ∨ ∃ b, nextAction s = .instr (.pushByte b)) ∧ s.busy = true) ∨
      (nextAction s = .instr .start ∧ s.errTooLarge = true) → s'.errCmd = true) ∧
    (∀ b, nextAction s = .instr (.pushByte b) → s.busy = false → s.n = s.cfg.maxSize →
      s'.errTooLarge = true)

/-- R271, R272: what sets each error flag. -/
def Obligations.ErrorFlagCauses : Prop :=
  ∀ s s' : State, step s = .next s' →
    (s.errTooLarge = false → s'.errTooLarge = true →
      ∃ b, nextAction s = .instr (.pushByte b) ∧ s.busy = false ∧ s.n = s.cfg.maxSize) ∧
    (s.errCmd = false → s'.errCmd = true →
      nextAction s = .illegalCommand ∨
      (∃ b, nextAction s = .instr (.pushByte b) ∧ s.busy = true) ∨
      (nextAction s = .instr .start ∧ (s.busy = true ∨ s.errTooLarge = true)))

/-- R274: the priority of errors, and that a step raises at most one. -/
def Obligations.ErrorPriority : Prop :=
  ∀ (s : State) (v : Word) (rest : List Turn),
    s.inputs = .host (hostWriteAt s.cfg 0x00 v) :: rest →
    ((∃ err, decode (.cmd v) = .error err) → step s = .next { s with errCmd := true, inputs := rest }) ∧
    ((∃ b, decode (.cmd v) = .ok (.pushByte b)) ∨ decode (.cmd v) = .ok .start → s.busy = true →
      step s = .next { s with errCmd := true, inputs := rest }) ∧
    ((∃ b, decode (.cmd v) = .ok (.pushByte b)) → s.busy = false → s.n = s.cfg.maxSize →
      step s = .next { s with errTooLarge := true, phase := .idle, inputs := rest }) ∧
    (∀ s', step s = .next s' → s'.errTooLarge = s.errTooLarge ∨ s'.errCmd = s.errCmd ∨
      decode (.cmd v) = .ok .init)

/-- R304: DONE, and with it H, N, BLKCNT and the message, stays until a PUSH_BYTE, START or INIT, or a
reset. -/
def Obligations.DoneStays : Prop :=
  ∀ s s' : State, s.phase = .done → step s = .next s' →
    (∃ b, nextAction s = .instr (.pushByte b)) ∨ nextAction s = .instr .start ∨
    nextAction s = .instr .init ∨ nextAction s = .platformReset ∨
    (s'.phase = .done ∧ s'.h = s.h ∧ s'.n = s.n ∧ s'.blkcnt = s.blkcnt ∧ s'.message = s.message)

/-- R5: the parameters never change (the model holds them in a field, log 1). -/
def Obligations.ParametersNeverChange : Prop :=
  ∀ s s' : State, step s = .next s' → s'.cfg = s.cfg

/-- R22: bytes supplied by PUSH_BYTE commands one after the other, while not BUSY and within the
capacity, extend the message in the order they were supplied. -/
def Obligations.PushedBytesInOrder : Prop :=
  ∀ (bytes : List Byte) (s : State), s.busy = false →
    s.n.toNat + bytes.length ≤ s.cfg.maxSize.toNat →
    s.inputs = (hostOpAccesses s.cfg (.pushString bytes)).map .host →
    ∃ u, runSteps bytes.length s = .next u ∧ u.message = s.message ++ bytes ∧
      u.n.toNat = s.n.toNat + bytes.length ∧ u.busy = false ∧ u.errTooLarge = s.errTooLarge ∧
      u.errCmd = s.errCmd ∧ u.h = s.h

/-- R215: a computation takes exactly 146 · blockCount(n) Core steps from START to DONE, when the Host is
silent (no turn of it is listed, log 3), and ends with the digest of the message. -/
def Obligations.ComputationTakes146StepsPerBlock : Prop :=
  ∀ s : State, s.Inv → s.busy = false → s.errTooLarge = false → s.inputs = [] →
    ∃ s0, exec .start s = .next s0 ∧
      (∀ k, k < 146 * blockCount s.n.toNat → ∃ u, runSteps k s0 = .next u ∧ u.busy = true) ∧
      ∃ u, runSteps (146 * blockCount s.n.toNat) s0 = .next u ∧ u.phase = .done ∧
        u.h = Reference.sha1 s.cfg.lenMode s.message

/-- R217: in any interleaving with host accesses, when START has run and no INIT or reset ends the
computation (every state before stays BUSY), the state in which phase first becomes DONE holds SHA1 of the
message that START saw, its block count, its length and its bytes. -/
def Obligations.FirstDoneHoldsDigest : Prop :=
  ∀ (s s0 u : State) (k : Nat), s.Inv → s.busy = false → s.errTooLarge = false →
    exec .start s = .next s0 →
    (∀ m v, m < k → runSteps m s0 = .next v → v.busy = true) →
    runSteps k s0 = .next u → u.phase = .done →
    u.h = Reference.sha1 s.cfg.lenMode s.message ∧
      u.blkcnt.toNat = blockCount s.n.toNat ∧ u.n = s.n ∧ u.message = s.message
end

