-- ==== Sys2Proof/Laws/State.lean ====
section
/-! SUPPORT. What each shared operation leaves in each field of State: one lemma per field per update.
The hidden fields a platform reset fills with free values (S, W, j, t) have no lemma. -/

namespace Sys2Proof.Machine

variable (s : State)

/-! `appendByte` -/

@[simp] theorem appendByte_msg (b : Byte) : (appendByte b s).msg = s.msg.write s.n.toNat b := rfl
@[simp] theorem appendByte_n (b : Byte) : (appendByte b s).n = s.n + 1 := rfl
@[simp] theorem appendByte_h (b : Byte) : (appendByte b s).h = s.h := rfl
@[simp] theorem appendByte_ws (b : Byte) : (appendByte b s).ws = s.ws := rfl
@[simp] theorem appendByte_w (b : Byte) : (appendByte b s).w = s.w := rfl
@[simp] theorem appendByte_blkcnt (b : Byte) : (appendByte b s).blkcnt = s.blkcnt := rfl
@[simp] theorem appendByte_i (b : Byte) : (appendByte b s).i = s.i := rfl
@[simp] theorem appendByte_j (b : Byte) : (appendByte b s).j = s.j := rfl
@[simp] theorem appendByte_t (b : Byte) : (appendByte b s).t = s.t := rfl
@[simp] theorem appendByte_phase (b : Byte) : (appendByte b s).phase = s.phase := rfl
@[simp] theorem appendByte_errTooLarge (b : Byte) : (appendByte b s).errTooLarge = s.errTooLarge := rfl
@[simp] theorem appendByte_errCmd (b : Byte) : (appendByte b s).errCmd = s.errCmd := rfl
@[simp] theorem appendByte_cfg (b : Byte) : (appendByte b s).cfg = s.cfg := rfl
@[simp] theorem appendByte_readData (b : Byte) : (appendByte b s).readData = s.readData := rfl
@[simp] theorem appendByte_drawCount (b : Byte) : (appendByte b s).drawCount = s.drawCount := rfl
@[simp] theorem appendByte_resetCount (b : Byte) : (appendByte b s).resetCount = s.resetCount := rfl
@[simp] theorem appendByte_inputs (b : Byte) : (appendByte b s).inputs = s.inputs := rfl

/-! `raiseError` -/

@[simp] theorem raiseError_msg (e : HardwareError) : (raiseError e s).msg = s.msg := rfl
@[simp] theorem raiseError_n (e : HardwareError) : (raiseError e s).n = s.n := rfl
@[simp] theorem raiseError_h (e : HardwareError) : (raiseError e s).h = s.h := rfl
@[simp] theorem raiseError_ws (e : HardwareError) : (raiseError e s).ws = s.ws := rfl
@[simp] theorem raiseError_w (e : HardwareError) : (raiseError e s).w = s.w := rfl
@[simp] theorem raiseError_blkcnt (e : HardwareError) : (raiseError e s).blkcnt = s.blkcnt := rfl
@[simp] theorem raiseError_i (e : HardwareError) : (raiseError e s).i = s.i := rfl
@[simp] theorem raiseError_j (e : HardwareError) : (raiseError e s).j = s.j := rfl
@[simp] theorem raiseError_t (e : HardwareError) : (raiseError e s).t = s.t := rfl
@[simp] theorem raiseError_phase (e : HardwareError) : (raiseError e s).phase = s.phase := rfl
@[simp] theorem raiseError_errTooLarge (e : HardwareError) :
    (raiseError e s).errTooLarge = (s.errTooLarge || decide (e = .inputTooLarge)) := rfl
@[simp] theorem raiseError_errCmd (e : HardwareError) :
    (raiseError e s).errCmd = (s.errCmd || decide (e = .commandError)) := rfl
@[simp] theorem raiseError_cfg (e : HardwareError) : (raiseError e s).cfg = s.cfg := rfl
@[simp] theorem raiseError_readData (e : HardwareError) : (raiseError e s).readData = s.readData := rfl
@[simp] theorem raiseError_drawCount (e : HardwareError) : (raiseError e s).drawCount = s.drawCount := rfl
@[simp] theorem raiseError_resetCount (e : HardwareError) : (raiseError e s).resetCount = s.resetCount := rfl
@[simp] theorem raiseError_inputs (e : HardwareError) : (raiseError e s).inputs = s.inputs := rfl

/-! `setPhase` -/

@[simp] theorem setPhase_msg (p : Phase) : (setPhase p s).msg = s.msg := rfl
@[simp] theorem setPhase_n (p : Phase) : (setPhase p s).n = s.n := rfl
@[simp] theorem setPhase_h (p : Phase) : (setPhase p s).h = s.h := rfl
@[simp] theorem setPhase_ws (p : Phase) : (setPhase p s).ws = s.ws := rfl
@[simp] theorem setPhase_w (p : Phase) : (setPhase p s).w = s.w := rfl
@[simp] theorem setPhase_blkcnt (p : Phase) : (setPhase p s).blkcnt = s.blkcnt := rfl
@[simp] theorem setPhase_i (p : Phase) : (setPhase p s).i = s.i := rfl
@[simp] theorem setPhase_j (p : Phase) : (setPhase p s).j = s.j := rfl
@[simp] theorem setPhase_t (p : Phase) : (setPhase p s).t = s.t := rfl
@[simp] theorem setPhase_phase (p : Phase) : (setPhase p s).phase = p := rfl
@[simp] theorem setPhase_errTooLarge (p : Phase) : (setPhase p s).errTooLarge = s.errTooLarge := rfl
@[simp] theorem setPhase_errCmd (p : Phase) : (setPhase p s).errCmd = s.errCmd := rfl
@[simp] theorem setPhase_cfg (p : Phase) : (setPhase p s).cfg = s.cfg := rfl
@[simp] theorem setPhase_readData (p : Phase) : (setPhase p s).readData = s.readData := rfl
@[simp] theorem setPhase_drawCount (p : Phase) : (setPhase p s).drawCount = s.drawCount := rfl
@[simp] theorem setPhase_resetCount (p : Phase) : (setPhase p s).resetCount = s.resetCount := rfl
@[simp] theorem setPhase_inputs (p : Phase) : (setPhase p s).inputs = s.inputs := rfl

/-! `seedDigest` -/

@[simp] theorem seedDigest_msg : (seedDigest s).msg = s.msg := rfl
@[simp] theorem seedDigest_n : (seedDigest s).n = s.n := rfl
@[simp] theorem seedDigest_h : (seedDigest s).h = iv := rfl
@[simp] theorem seedDigest_ws : (seedDigest s).ws = s.ws := rfl
@[simp] theorem seedDigest_w : (seedDigest s).w = s.w := rfl
@[simp] theorem seedDigest_blkcnt : (seedDigest s).blkcnt = s.blkcnt := rfl
@[simp] theorem seedDigest_i : (seedDigest s).i = s.i := rfl
@[simp] theorem seedDigest_j : (seedDigest s).j = s.j := rfl
@[simp] theorem seedDigest_t : (seedDigest s).t = s.t := rfl
@[simp] theorem seedDigest_phase : (seedDigest s).phase = s.phase := rfl
@[simp] theorem seedDigest_errTooLarge : (seedDigest s).errTooLarge = s.errTooLarge := rfl
@[simp] theorem seedDigest_errCmd : (seedDigest s).errCmd = s.errCmd := rfl
@[simp] theorem seedDigest_cfg : (seedDigest s).cfg = s.cfg := rfl
@[simp] theorem seedDigest_readData : (seedDigest s).readData = s.readData := rfl
@[simp] theorem seedDigest_drawCount : (seedDigest s).drawCount = s.drawCount := rfl
@[simp] theorem seedDigest_resetCount : (seedDigest s).resetCount = s.resetCount := rfl
@[simp] theorem seedDigest_inputs : (seedDigest s).inputs = s.inputs := rfl

/-! `takeTurn` -/

@[simp] theorem takeTurn_msg : (takeTurn s).msg = s.msg := rfl
@[simp] theorem takeTurn_n : (takeTurn s).n = s.n := rfl
@[simp] theorem takeTurn_h : (takeTurn s).h = s.h := rfl
@[simp] theorem takeTurn_ws : (takeTurn s).ws = s.ws := rfl
@[simp] theorem takeTurn_w : (takeTurn s).w = s.w := rfl
@[simp] theorem takeTurn_blkcnt : (takeTurn s).blkcnt = s.blkcnt := rfl
@[simp] theorem takeTurn_i : (takeTurn s).i = s.i := rfl
@[simp] theorem takeTurn_j : (takeTurn s).j = s.j := rfl
@[simp] theorem takeTurn_t : (takeTurn s).t = s.t := rfl
@[simp] theorem takeTurn_phase : (takeTurn s).phase = s.phase := rfl
@[simp] theorem takeTurn_errTooLarge : (takeTurn s).errTooLarge = s.errTooLarge := rfl
@[simp] theorem takeTurn_errCmd : (takeTurn s).errCmd = s.errCmd := rfl
@[simp] theorem takeTurn_cfg : (takeTurn s).cfg = s.cfg := rfl
@[simp] theorem takeTurn_readData : (takeTurn s).readData = s.readData := rfl
@[simp] theorem takeTurn_drawCount : (takeTurn s).drawCount = s.drawCount := rfl
@[simp] theorem takeTurn_resetCount : (takeTurn s).resetCount = s.resetCount := rfl
@[simp] theorem takeTurn_inputs : (takeTurn s).inputs = s.inputs.tail := rfl

/-! `hostRead` -/

@[simp] theorem hostRead_msg (r : Reg) : (hostRead r s).msg = s.msg := rfl
@[simp] theorem hostRead_n (r : Reg) : (hostRead r s).n = s.n := rfl
@[simp] theorem hostRead_h (r : Reg) : (hostRead r s).h = s.h := rfl
@[simp] theorem hostRead_ws (r : Reg) : (hostRead r s).ws = s.ws := rfl
@[simp] theorem hostRead_w (r : Reg) : (hostRead r s).w = s.w := rfl
@[simp] theorem hostRead_blkcnt (r : Reg) : (hostRead r s).blkcnt = s.blkcnt := rfl
@[simp] theorem hostRead_i (r : Reg) : (hostRead r s).i = s.i := rfl
@[simp] theorem hostRead_j (r : Reg) : (hostRead r s).j = s.j := rfl
@[simp] theorem hostRead_t (r : Reg) : (hostRead r s).t = s.t := rfl
@[simp] theorem hostRead_phase (r : Reg) : (hostRead r s).phase = s.phase := rfl
@[simp] theorem hostRead_errTooLarge (r : Reg) : (hostRead r s).errTooLarge = s.errTooLarge := rfl
@[simp] theorem hostRead_errCmd (r : Reg) : (hostRead r s).errCmd = s.errCmd := rfl
@[simp] theorem hostRead_cfg (r : Reg) : (hostRead r s).cfg = s.cfg := rfl
@[simp] theorem hostRead_readData (r : Reg) : (hostRead r s).readData = some (readValue r s) := rfl
@[simp] theorem hostRead_drawCount (r : Reg) :
    (hostRead r s).drawCount = if readDraws r s then s.drawCount + 1 else s.drawCount := rfl
@[simp] theorem hostRead_resetCount (r : Reg) : (hostRead r s).resetCount = s.resetCount := rfl
@[simp] theorem hostRead_inputs (r : Reg) : (hostRead r s).inputs = s.inputs := rfl

/-! `platformReset` -/

@[simp] theorem platformReset_msg : (platformReset s).msg = [] := rfl
@[simp] theorem platformReset_n : (platformReset s).n = 0 := rfl
@[simp] theorem platformReset_h : (platformReset s).h = iv := rfl
@[simp] theorem platformReset_blkcnt : (platformReset s).blkcnt = 0 := rfl
@[simp] theorem platformReset_i : (platformReset s).i = Config.resetDraw (s.resetCount + 1) 85 := rfl
@[simp] theorem platformReset_phase : (platformReset s).phase = .idle := rfl
@[simp] theorem platformReset_errTooLarge : (platformReset s).errTooLarge = false := rfl
@[simp] theorem platformReset_errCmd : (platformReset s).errCmd = false := rfl
@[simp] theorem platformReset_cfg : (platformReset s).cfg = s.cfg := rfl
@[simp] theorem platformReset_readData : (platformReset s).readData = s.readData := rfl
@[simp] theorem platformReset_drawCount : (platformReset s).drawCount = s.drawCount := rfl
@[simp] theorem platformReset_resetCount : (platformReset s).resetCount = s.resetCount + 1 := rfl
@[simp] theorem platformReset_inputs : (platformReset s).inputs = s.inputs := rfl

end Sys2Proof.Machine
end

