-- ==== Sys2Proof/Laws/Memory.lean ====
section
/-! SUPPORT. The message buffer: a read after a write, the canonical form every operation keeps, and
what the shared operations do to the bytes of MSG and to the message. -/

namespace Sys2Proof.Machine

theorem Memory.read?_write (m : Memory) (a : Nat) (b : Byte) (x : Nat) :
    (m.write a b).read? x = if x = a then some b else m.read? x := by
  induction m with
  | nil => simp only [Memory.write, Memory.read?, eq_comm]
  | cons cell rest ih =>
    obtain ⟨y, c⟩ := cell
    simp only [Memory.write]
    split
    · simp only [Memory.read?, eq_comm]
    · split
      · subst_vars
        simp only [Memory.read?, eq_comm]
        split <;> simp_all
      · simp only [Memory.read?, ih]
        split <;> split <;> simp_all

@[simp] theorem Memory.read?_write_same (m : Memory) (a : Nat) (b : Byte) :
    (m.write a b).read? a = some b := by
  simp [Memory.read?_write]

theorem Memory.read?_write_other (m : Memory) (a : Nat) (b : Byte) {x : Nat} (h : x ≠ a) :
    (m.write a b).read? x = m.read? x := by
  simp [Memory.read?_write, h]

/-- The canonical form, as a statement about the head and the rest. -/
theorem Memory.wf_cons (x : Nat) (c : Byte) (rest : Memory) :
    Memory.wf ((x, c) :: rest) = true ↔
      (∀ y d, rest.head? = some (y, d) → x < y) ∧ rest.wf = true := by
  cases rest with
  | nil => simp [Memory.wf]
  | cons cell rest => obtain ⟨y, d⟩ := cell; simp [Memory.wf]

/-- Where a write puts its cell: the head of the result is the head before or the written cell. -/
theorem Memory.head?_write (m : Memory) (a : Nat) (b : Byte) {y : Nat} {d : Byte}
    (h : (m.write a b).head? = some (y, d)) : y = a ∨ m.head? = some (y, d) := by
  cases m with
  | nil => simp [Memory.write] at h; exact .inl h.1.symm
  | cons cell rest =>
    obtain ⟨x, c⟩ := cell
    simp only [Memory.write] at h
    split at h
    · simp at h; exact .inl h.1.symm
    · split at h
      · simp at h; exact .inl h.1.symm
      · exact .inr (by simpa using h)

/-- A write keeps the canonical form. -/
theorem Memory.wf_write (m : Memory) (a : Nat) (b : Byte) (h : m.wf = true) :
    (m.write a b).wf = true := by
  induction m with
  | nil => simp [Memory.write, Memory.wf]
  | cons cell rest ih =>
    obtain ⟨x, c⟩ := cell
    have ⟨hx, hrest⟩ := (Memory.wf_cons x c rest).mp h
    simp only [Memory.write]
    split
    · next hlt => exact (Memory.wf_cons _ _ _).mpr ⟨by simpa using hlt, h⟩
    · split
      · next heq => subst heq; exact (Memory.wf_cons _ _ _).mpr ⟨hx, hrest⟩
      · next hge hne =>
        refine (Memory.wf_cons _ _ _).mpr ⟨fun y d hy => ?_, ih hrest⟩
        obtain rfl | hy := Memory.head?_write _ _ _ hy
        · omega
        · exact hx y d hy

theorem appendByte_wf (b : Byte) (s : State) (h : s.msg.wf = true) :
    (appendByte b s).msg.wf = true := Memory.wf_write _ _ _ h

theorem platformReset_wf (s : State) : (platformReset s).msg.wf = true := rfl

theorem reset_wf (c : Config) : (State.resetWith c).msg.wf = true := rfl

theorem messageByte_appendByte (b : Byte) (s : State) (a : Nat) :
    (appendByte b s).messageByte a = if a = s.n.toNat then b else s.messageByte a := by
  simp only [State.messageByte, appendByte_msg, appendByte_resetCount, Memory.read?_write]
  split <;> rfl

/-- What a state holds in MSG depends on `msg` and the number of resets only. -/
theorem messageByte_congr {s u : State} (hm : u.msg = s.msg) (hr : u.resetCount = s.resetCount) :
    u.messageByte = s.messageByte := by
  funext a; simp [State.messageByte, hm, hr]

/-- The message depends on `msg`, `n` and the number of resets only. -/
theorem message_congr {s u : State} (hm : u.msg = s.msg) (hn : u.n = s.n)
    (hr : u.resetCount = s.resetCount) : u.message = s.message := by
  simp [State.message, messageByte_congr hm hr, hn]

@[simp] theorem message_length (s : State) : s.message.length = s.n.toNat := by
  simp [State.message]

end Sys2Proof.Machine
end

