-- ==== Sys2Proof/Laws/Instructions.lean ====
section
/-! SUPPORT. One lemma per instruction that says everything its meaning can do: when it answers a next
state, and which. Later proofs cite these and do not unfold the meanings. -/

namespace Sys2Proof.Machine

variable {s s' : State}

theorem execNop_next : execNop s = .next s' ↔ s' = s := by
  simp only [execNop, Host.Outcome.next.injEq, eq_comm]

theorem execInit_next : execInit s = .next s' ↔
    s' = { s with n := 0, blkcnt := 0, h := iv, errTooLarge := false, errCmd := false, phase := .idle } := by
  simp only [execInit, setPhase, seedDigest, Host.Outcome.next.injEq, eq_comm]

theorem execPushByte_next {b : Byte} : execPushByte b s = .next s' ↔
    (s.busy = true ∧ s' = { s with errCmd := true }) ∨
    (s.busy = false ∧ s.n = s.cfg.maxSize ∧ s' = { s with errTooLarge := true, phase := .idle }) ∨
    (s.busy = false ∧ s.n < s.cfg.maxSize ∧
      s' = { s with msg := s.msg.write s.n.toNat b, n := s.n + 1, phase := .idle }) := by
  unfold execPushByte
  split
  · simp_all [raiseError]; exact eq_comm
  · split
    · simp_all [raiseError, setPhase]; exact eq_comm
    · split
      · simp_all [appendByte, setPhase]; exact eq_comm
      · simp_all

theorem execStart_next : execStart s = .next s' ↔
    ((s.busy = true ∨ s.errTooLarge = true) ∧ s' = { s with errCmd := true }) ∨
    (s.busy = false ∧ s.errTooLarge = false ∧
      s' = { s with blkcnt := BitVec.ofNat 32 (blockCount s.n.toNat), h := iv, i := 0, phase := .load }) := by
  unfold execStart
  split
  · simp_all [raiseError]; exact eq_comm
  · split
    · simp_all [raiseError]; exact eq_comm
    · simp_all [seedDigest, setPhase]; exact eq_comm

theorem execLoad_next : execLoad s = .next s' ↔
    s.n ≤ s.cfg.maxSize ∧ s.i.toNat < blockCount s.n.toNat ∧
      s' = { s with
        w := loadSchedule (blockWord s.cfg.lenMode s.n.toNat s.messageByte s.i.toNat) s.w
        ws := seedWorking s.h, j := 16, phase := .expand } := by
  unfold execLoad
  split
  · simp_all
  · split
    · simp_all
    · simp_all [setPhase]; exact eq_comm

/-- The entry EXPAND computes (R212). -/
def nextEntry (s : State) : Word :=
  scheduleStep (s.scheduleWord (s.j.toNat - 3)) (s.scheduleWord (s.j.toNat - 8))
    (s.scheduleWord (s.j.toNat - 14)) (s.scheduleWord (s.j.toNat - 16))

theorem execExpand_next : execExpand s = .next s' ↔
    16 ≤ s.j.toNat ∧ s.j.toNat ≤ 79 ∧
      s' = { s with
        w := s.w.setIfInBounds s.j.toNat (nextEntry s)
        j := s.j + 1
        t := if s.j = 79 then 0 else s.t
        phase := if s.j = 79 then .round else s.phase } := by
  have h80 : s.j + 1 = 80 ↔ s.j = 79 := by constructor <;> intro h <;> bv_omega
  simp only [execExpand, h80]
  split
  · simp
    omega
  · split
    · simp_all [setPhase, nextEntry]; exact eq_comm
    · simp_all [nextEntry]; exact eq_comm

theorem execRound_next : execRound s = .next s' ↔
    s.t.toNat ≤ 79 ∧
      s' = { s with
        ws := roundStep s.t.toNat s.ws (s.scheduleWord s.t.toNat)
        t := s.t + 1
        phase := if s.t = 79 then .accum else s.phase } := by
  have h80 : s.t + 1 = 80 ↔ s.t = 79 := by constructor <;> intro h <;> bv_omega
  simp only [execRound, h80]
  split
  · simp
    omega
  · split
    · simp_all [setPhase]; exact eq_comm
    · simp_all; exact eq_comm

theorem execAccum_next : execAccum s = .next s' ↔
    s' = { s with
      h := accumulate s.h s.ws
      i := s.i + 1
      phase := if s.i + 1 < s.blkcnt then .load else .done } := by
  unfold execAccum
  split <;> simp_all [setPhase]
  all_goals exact eq_comm

/-- No instruction is refused. -/
theorem exec_not_refused (i : Instr) (s : State) (r : Refusal) : exec i s ≠ .refused r := by
  cases i <;>
    simp only [exec, execNop, execInit, execPushByte, execStart, execLoad, execExpand, execRound,
      execAccum] <;>
    repeat' (first | split | simp)

end Sys2Proof.Machine
end

