-- ==== Sys2Proof/Laws/PerInstr.lean ====
section
/-! SUPPORT. The per-instruction family EncodeWellFormed: every instruction is well-formed, and its
encoding meets the field rules of R82, R85 and R98. -/

namespace Sys2Proof.Laws.EncodeWellFormed

/-- The instruction and its encoding are well-formed. -/
def Statement (i : Instr) : Prop := i.wellFormed = true ∧ (encode i).wellFormed = true

theorem nop : Statement .nop := by constructor <;> decide

theorem init : Statement .init := by constructor <;> decide

theorem pushByte (b : Byte) : Statement (.pushByte b) := by
  refine ⟨rfl, ?_⟩
  revert b
  decide +kernel

theorem start : Statement .start := by constructor <;> decide

theorem load : Statement .load := by constructor <;> decide

theorem expand : Statement .expand := by constructor <;> decide

theorem round : Statement .round := by constructor <;> decide

theorem accum : Statement .accum := by constructor <;> decide

end Sys2Proof.Laws.EncodeWellFormed
end

