-- ==== Sys2Proof/Laws/Step.lean ====
section
/-! SUPPORT. Everything one step can do (`step_cases`), and what each action says of the next turn and
the phase. -/

namespace Sys2Proof.Machine

variable {s s' : State}

/-- The one inversion lemma of the step. -/
theorem step_cases (h : step s = .next s') :
    (∃ i, nextAction s = .instr i ∧ exec i (takeTurn s) = .next s') ∨
    (nextAction s = .illegalCommand ∧ s' = raiseError .commandError (takeTurn s)) ∨
    (∃ r, nextAction s = .read r ∧ s' = hostRead r (takeTurn s)) ∨
    ((nextAction s = .ignoredWrite ∨ nextAction s = .waits) ∧ s' = takeTurn s) ∨
    (nextAction s = .platformReset ∧ s' = platformReset (takeTurn s)) := by
  unfold step at h
  split at h <;> simp_all

theorem step_of_instr {i : Instr} (h : nextAction s = .instr i) : step s = exec i (takeTurn s) := by
  simp [step, h]

/-- A command word decodes to a command, never to a core step. -/
theorem decodeCommand_isCommand {v : Word} {i : Instr} (h : decodeCommand v = .ok i) :
    isCommand i = true := by
  unfold decodeCommand at h
  repeat' split at h
  all_goals first | cases h; rfl | cases h

theorem coreAction_idle (h : s.phase = .idle) : coreAction s = .waits := by
  simp [coreAction, h, decode, decodePhase, phaseCode]

theorem coreAction_done (h : s.phase = .done) : coreAction s = .waits := by
  simp [coreAction, h, decode, decodePhase, phaseCode]

theorem coreAction_load (h : s.phase = .load) : coreAction s = .instr .load := by
  simp [coreAction, h, decode, decodePhase, phaseCode]

theorem coreAction_expand (h : s.phase = .expand) : coreAction s = .instr .expand := by
  simp [coreAction, h, decode, decodePhase, phaseCode]

theorem coreAction_round (h : s.phase = .round) : coreAction s = .instr .round := by
  simp [coreAction, h, decode, decodePhase, phaseCode]

theorem coreAction_accum (h : s.phase = .accum) : coreAction s = .instr .accum := by
  simp [coreAction, h, decode, decodePhase, phaseCode]

/-- A core step is what the Core's phase selects. -/
theorem coreAction_cases (s : State) :
    (s.busy = false ∧ coreAction s = .waits) ∨
    (s.phase = .load ∧ coreAction s = .instr .load) ∨
    (s.phase = .expand ∧ coreAction s = .instr .expand) ∨
    (s.phase = .round ∧ coreAction s = .instr .round) ∨
    (s.phase = .accum ∧ coreAction s = .instr .accum) := by
  cases h : s.phase <;>
    simp [State.busy, h, phaseBusy, coreAction_idle, coreAction_load, coreAction_expand,
      coreAction_round, coreAction_accum, coreAction_done]

/-- A host access never runs a core step. -/
theorem accessAction_isCommand {c : Config} {a : Access} {i : Instr}
    (h : accessAction c a = .instr i) : isCommand i = true := by
  unfold accessAction at h
  split at h
  · cases h
  · split at h
    · cases h
    · split at h <;> try cases h
      split at h
      · cases h
        next hd => exact decodeCommand_isCommand hd
      · cases h

/-- Which instruction runs: a command that the Host wrote, or the step of the current phase. -/
theorem nextAction_instr {i : Instr} (h : nextAction s = .instr i) :
    (isCommand i = true ∧ ∃ a rest, s.inputs = .host a :: rest ∧ accessAction s.cfg a = .instr i) ∨
    (s.phase = .load ∧ i = .load) ∨ (s.phase = .expand ∧ i = .expand) ∨
    (s.phase = .round ∧ i = .round) ∨ (s.phase = .accum ∧ i = .accum) := by
  have core : coreAction s = .instr i → (s.phase = .load ∧ i = .load) ∨
      (s.phase = .expand ∧ i = .expand) ∨ (s.phase = .round ∧ i = .round) ∨
      (s.phase = .accum ∧ i = .accum) := by
    intro hc
    obtain ⟨_, h⟩ | ⟨hp, h⟩ | ⟨hp, h⟩ | ⟨hp, h⟩ | ⟨hp, h⟩ := coreAction_cases s <;>
      simp_all
  unfold nextAction at h
  split at h
  · exact .inr (core h)
  · exact .inr (core h)
  · next a rest hin => exact .inl ⟨accessAction_isCommand h, a, rest, hin, h⟩
  · cases h

theorem phase_of_load (h : nextAction s = .instr .load) : s.phase = .load := by
  obtain ⟨hc, _⟩ | h | h | h | h := nextAction_instr h <;> simp_all [isCommand]

theorem phase_of_expand (h : nextAction s = .instr .expand) : s.phase = .expand := by
  obtain ⟨hc, _⟩ | h | h | h | h := nextAction_instr h <;> simp_all [isCommand]

theorem phase_of_round (h : nextAction s = .instr .round) : s.phase = .round := by
  obtain ⟨hc, _⟩ | h | h | h | h := nextAction_instr h <;> simp_all [isCommand]

theorem phase_of_accum (h : nextAction s = .instr .accum) : s.phase = .accum := by
  obtain ⟨hc, _⟩ | h | h | h | h := nextAction_instr h <;> simp_all [isCommand]

end Sys2Proof.Machine
end

