-- ==== Sys2Proof/Laws/Words.lean ====
section
/-! SUPPORT. The pure functions: words of a register file, the padder's dependence on the message bytes,
the packing of a byte list into words, and the length and prefix of a schedule built by appending. -/

namespace Sys2Proof.Machine

@[simp] theorem wordBytes_length (w : Word) : (wordBytes w).length = 4 := rfl

@[simp] theorem digestBytes_length (h : DigestState) : (digestBytes h).length = 20 := rfl

/-- Byte m of a word, most significant first. -/
theorem wordBytes_getD (w : Word) {m : Nat} (hm : m < 4) :
    (wordBytes w).getD m 0 = w.extractLsb' (24 - 8 * m) 8 := by
  match m, hm with
  | 0, _ => rfl
  | 1, _ => rfl
  | 2, _ => rfl
  | 3, _ => rfl

theorem wordAt_lt {m k : Nat} (v : Vector Word m) (h : k < m) : wordAt v k = v[k] := by
  simp [wordAt, h]

theorem wordAt_ge {m k : Nat} (v : Vector Word m) (h : m ≤ k) : wordAt v k = 0 := by
  simp [wordAt, Nat.not_lt.mpr h]

theorem wordAt_set {m k : Nat} (v : Vector Word m) (x : Word) (j : Nat) (hk : k < m) :
    wordAt (v.setIfInBounds k x) j = if j = k then x else wordAt v j := by
  by_cases hj : j < m
  · rw [wordAt_lt _ hj, wordAt_lt _ hj, Vector.getElem_setIfInBounds]
    simp [eq_comm]
  · have : j ≠ k := by omega
    rw [wordAt_ge _ (by omega), wordAt_ge _ (by omega), if_neg this]

theorem wordAt_loadSchedule (block : Nat → Word) (w : Vector Word 80) (k : Nat) :
    wordAt (loadSchedule block w) k = if k < 16 then block k else wordAt w k := by
  by_cases h : k < 80
  · simp [wordAt, loadSchedule, h]
  · have : ¬ k < 16 := by omega
    simp [wordAt, h, this]

/-- The padder reads the message below n only (R112). -/
theorem padByte_congr {mode : LenMode} {n k : Nat} {m m' : Nat → Byte}
    (h : ∀ a, a < n → m a = m' a) : padByte mode n m k = padByte mode n m' k := by
  unfold padByte
  split
  · next hk => exact h _ hk
  · rfl

theorem blockWord_congr {mode : LenMode} {n i k : Nat} {m m' : Nat → Byte}
    (h : ∀ a, a < n → m a = m' a) : blockWord mode n m i k = blockWord mode n m' i k := by
  simp only [blockWord, padWord, padByte_congr h]

theorem message_getD (s : State) {a : Nat} (h : a < s.n.toNat) :
    s.message.getD a 0 = s.messageByte a := by
  rw [List.getD_eq_getElem _ _ (by simpa using h)]
  simp [State.message]

namespace Reference

theorem packWords_length : ∀ l : List Byte, (packWords l).length = l.length / 4
  | b0 :: b1 :: b2 :: b3 :: rest => by
    simp only [packWords, List.length_cons, packWords_length rest]
    omega
  | [] => by simp [packWords]
  | [_] => by simp [packWords]
  | [_, _] => by simp [packWords]
  | [_, _, _] => by simp [packWords]

theorem packWords_getD : ∀ (l : List Byte) (w : Nat), 4 * w + 4 ≤ l.length →
    (packWords l).getD w 0
      = pack (l.getD (4 * w) 0) (l.getD (4 * w + 1) 0) (l.getD (4 * w + 2) 0) (l.getD (4 * w + 3) 0)
  | b0 :: b1 :: b2 :: b3 :: rest, 0, _ => by simp [packWords]
  | b0 :: b1 :: b2 :: b3 :: rest, w + 1, h => by
    have ih := packWords_getD rest w (by simp at h; omega)
    have e : 4 * (w + 1) = 4 * w + 1 + 1 + 1 + 1 := by omega
    simp only [packWords, List.getD_cons_succ, ih, e]
  | [], w, h => by simp at h
  | [_], w, h => by simp at h
  | [_, _], w, h => by simp at h
  | [_, _, _], w, h => by simp at h

theorem extendSchedule_length : ∀ (k : Nat) (l : List Word),
    (extendSchedule k l).length = l.length + k
  | 0, l => by simp [extendSchedule]
  | k + 1, l => by
    simp [extendSchedule, extendSchedule_length k]
    omega

/-- Appending keeps the entries that are there. -/
theorem extendSchedule_prefix : ∀ (k : Nat) (l : List Word) (j : Nat), j < l.length →
    (extendSchedule k l).getD j 0 = l.getD j 0
  | 0, l, j, _ => by simp [extendSchedule]
  | k + 1, l, j, h => by
    rw [extendSchedule, extendSchedule_prefix k _ j (by simp; omega), List.getD_append _ _ _ _ h]

end Reference

end Sys2Proof.Machine
end

