-- ==== Sys2Proof/Tests/Slice0.lean ====
section
/-! SUPPORT. The model's own tests: the well-formedness checks, decoding from words written out bit by
bit, one step on small states, the worked examples of spec/95_test_vectors.md and of the rules, and for
every statement with hypotheses a state and operands that meet them (`witness_…`). Expected values are
those of spec/, at the section or rule named. -/

namespace Sys2Proof.Tests

-- one theorem after the other: checking many at once takes a thread and its stack for each
set_option Elab.async false

open Sys2Proof Sys2Proof.Machine

/-! ### Small states -/

/-- MAX_SIZE = 4, as in 95 section 8. -/
def c4 : Config := { maxSize := 4, lenMode := .full64, regBase := 0x1000 }

/-- Right after reset, MAX_SIZE = 4. -/
def fresh : State := State.resetWith c4

def abcBytes : Memory := [(0, 0x61), (1, 0x62), (2, 0x63)]

/-- "abc" pushed. -/
def abc : State := { fresh with msg := abcBytes, n := 3 }

/-- "abcd" pushed: the buffer is full. -/
def abcd : State := { fresh with msg := abcBytes ++ [(3, 0x64)], n := 4 }

/-- A fifth byte was pushed onto "abcd". -/
def tooLarge : State := { abcd with errTooLarge := true }

/-- START of "abc". -/
def loading : State := { abc with blkcnt := 1, i := 0, phase := .load }

/-- The schedule of "abc", as 95 section 4.1 lists it. -/
def abcWords : List Word :=
  [ 0x61626380, 0, 0, 0, 0,
    0, 0, 0, 0, 0,
    0, 0, 0, 0, 0,
    0x00000018, 0xC2C4C700, 0, 0x00000030, 0x85898E01 ]
  ++ [ 0, 0x00000060, 0x0B131C03, 0x00000030, 0x85898EC1,
    0x16263806, 0, 0x00000180, 0x2C4C700C, 0x000000F0,
    0x93AFB507, 0x5898E048, 0x8E9A9202, 0x00000600, 0xB131C0F0,
    0x16263BC6, 0x4EBED41E, 0x626380A1, 0x16263806, 0x000018C0 ]
  ++ [ 0xD2E138C4, 0x00000F00, 0x3AFB5079, 0x898E04E5, 0xE2BA3C2B,
    0x000060C0, 0x053A37CD, 0x74458547, 0xDA9415ED, 0x26380A16,
    0x626383A1, 0x4EBF54DE, 0x3835B44B, 0x0000F600, 0x1E84C7A3,
    0x98E04D98, 0x651D16A0, 0x62658CA1, 0x458544D6, 0x44584CB7 ]
  ++ [ 0x7BA06619, 0x6380AEA2, 0x0AE55269, 0x627B49A1, 0x7CD45C9D,
    0x000F0000, 0xFB50753A, 0xEC6765E8, 0xBA3C2BE2, 0x0060C000,
    0x3A37CD05, 0x458546F4, 0xB8599DD6, 0x380A1A26, 0x01E02203,
    0xE7CC3456, 0xE6E60B69, 0x00F60A00, 0x5795EF4F, 0x822E0879 ]

/-- W holding it. -/
def abcSchedule : Vector Word 80 := Vector.ofFn fun k : Fin 80 => abcWords.getD k.val 0

/-- EXPAND at index `j`, with the schedule of "abc" in W. -/
def expanding (j : BitVec 7) : State :=
  { loading with phase := .expand, j := j, w := abcSchedule, ws := seedWorking iv }

/-- ROUND `t` of "abc" with working state `ws`. -/
def rounding (t : BitVec 7) (ws : WorkingState) : State :=
  { loading with phase := .round, j := 80, t := t, w := abcSchedule, ws := ws }

/-- The state after round 78 of "abc" (95 section 5.2). -/
def row78 : WorkingState := ⟨0x5738D5E1, 0x860D21CC, 0x681E6DF6, 0xD8FDF6AD, 0xD7B9DA25⟩

/-- The state after round 79 of "abc" (95 section 5.2). -/
def row79 : WorkingState := ⟨0x42541B35, 0x5738D5E1, 0x21834873, 0x681E6DF6, 0xD8FDF6AD⟩

/-- ACCUM of "abc". -/
def accumulating : State := { rounding 80 row79 with phase := .accum }

/-- The digest of "abc" (95 section 1.1). -/
def abcDigest : DigestState := ⟨0xA9993E36, 0x4706816A, 0xBA3E2571, 0x7850C26C, 0x9CD0D89D⟩

/-- "abc" hashed. -/
def finished : State := { accumulating with phase := .done, i := 1, h := abcDigest }

/-- `n` bytes 0, 1, 2, … pushed, with room for no more. -/
def counting (n : Nat) : State :=
  { State.resetWith { c4 with maxSize := BitVec.ofNat 32 n } with
    msg := (List.range n).map fun k => (k, BitVec.ofNat 8 k)
    n := BitVec.ofNat 32 n }

/-- The next turn is a HostWrite of `v` to CMD. -/
def writing (v : Word) (s : State) : State := { s with inputs := [.host (hostWriteAt s.cfg 0x00 v)] }

/-- The next turn is a HostRead of offset `off`. -/
def reading (off : Nat) (s : State) : State := { s with inputs := [.host (hostReadAt s.cfg off)] }

/-- The state a step answers with, if it does. -/
def nextOf : Result → Option State
  | .next s => some s
  | .fault _ => none
  | .refused _ => none

/-- The refusal a step answers with, if it does. -/
def refusalOf : Result → Option Refusal
  | .next _ => none
  | .fault _ => none
  | .refused r => some r

/-- The fault a step answers with, if it does. -/
def faultOf : Result → Option Fault
  | .next _ => none
  | .fault f => some f
  | .refused _ => none

/-- What a step makes of `s`, seen through `view`. -/
def afterStep {α : Type} (view : State → α) (s : State) : Option α := (nextOf (step s)).map view

/-- What an instruction makes of `s`, seen through `view`. -/
def after {α : Type} (i : Instr) (view : State → α) (s : State) : Option α := (nextOf (exec i s)).map view

/-! ### Well-formedness: an ill-formed term for each check -/

theorem test_opc_out_of_range : (Encoded.cmd 0x04000000).wellFormed = false := by decide
theorem test_opc_255 : (Encoded.cmd 0xFF000000).wellFormed = false := by decide
theorem test_rsv_not_zero : (Encoded.cmd 0x02010061).wellFormed = false := by decide
theorem test_data_not_zero : (Encoded.cmd 0x01000080).wellFormed = false := by decide
theorem test_phase_codes_that_select_no_step :
    [0, 5, 6, 7].map (fun c => (Encoded.phase c).wellFormed) = [false, false, false, false] := by decide
theorem test_access_width : Access.wellFormed c4 ⟨0x1004, 16, .read⟩ = false := by decide
theorem test_access_below_window : Access.wellFormed c4 ⟨0x0FFC, 32, .read⟩ = false := by decide
theorem test_access_above_window : Access.wellFormed c4 ⟨0x1040, 32, .read⟩ = false := by decide
theorem test_access_misaligned : Access.wellFormed c4 ⟨0x1006, 32, .read⟩ = false := by decide
theorem test_well_formed_terms :
    (Encoded.cmd 0x020000FF).wellFormed = true ∧ (Encoded.phase 4).wellFormed = true ∧
    Access.wellFormed c4 ⟨0x103C, 32, .read⟩ = true := by decide
/-- Every instruction is well-formed, and so is its encoding. -/
theorem test_instr_well_formed : (Instr.pushByte 0x80).wellFormed = true ∧
    (encode (.pushByte 0x80)).wellFormed = true := Laws.EncodeWellFormed.pushByte 0x80

/-! ### Decoding, from OPC, RSV and DATA written out (R82, R83), and from phase codes (R98) -/

theorem test_decode_nop : decode (.cmd (0b00000000#8 ++ 0b0000000000000000#16 ++ 0b00000000#8)) = .ok .nop := by
  decide
theorem test_decode_init : decode (.cmd (0b00000001#8 ++ 0b0000000000000000#16 ++ 0b00000000#8)) = .ok .init := by
  decide
theorem test_decode_pushByte :
    decode (.cmd (0b00000010#8 ++ 0b0000000000000000#16 ++ 0b01100001#8)) = .ok (.pushByte 0x61) := by decide
theorem test_decode_start : decode (.cmd (0b00000011#8 ++ 0b0000000000000000#16 ++ 0b00000000#8)) = .ok .start := by
  decide
theorem test_decode_load : decode (.phase 0b001#3) = .ok .load := by decide
theorem test_decode_expand : decode (.phase 0b010#3) = .ok .expand := by decide
theorem test_decode_round : decode (.phase 0b011#3) = .ok .round := by decide
theorem test_decode_accum : decode (.phase 0b100#3) = .ok .accum := by decide
theorem test_illegal_words :
    [0x00000001, 0x00000100, 0x01000080, 0x01000001, 0x02010061, 0x02000100, 0x03000001, 0x04000000, 0x05000000,
      0xFF000000].map decodeCommand
    = [0x00000001, 0x00000100, 0x01000080, 0x01000001, 0x02010061, 0x02000100, 0x03000001, 0x04000000, 0x05000000,
      0xFF000000].map fun v => .error (.illegalCommand v) := by decide
theorem test_phases_without_step : decode (.phase 0) = .error (.noCoreStep 0) ∧
    decode (.phase 5) = .error (.noCoreStep 5) ∧ decode (.phase 6) = .error (.unusedPhaseCode 6) ∧
    decode (.phase 7) = .error (.unusedPhaseCode 7) := by decide
theorem test_decodeTableWord : decodeTableWord 32 0x02000080 = some (.pushByte 0x80) ∧
    decodeTableWord 8 3 = some .round ∧ decodeTableWord 8 5 = none ∧ decodeTableWord 32 3 = none := by decide

/-! ### The host's entry points -/

/-- R244's example, as the first step after reset. -/
theorem test_withFetchWord_command :
    afterStep (fun s => (s.n, s.msg.read? 0, s.status)) (State.reset.withFetchWord 32 0x02000061)
      = some (1, some 0x61, 0) := by decide +kernel
/-- ACCUM as the first step after reset: BLKCNT = 0, so the phase becomes DONE (R214). -/
theorem test_withFetchWord_phase :
    afterStep (fun s => (s.status, s.i)) (State.reset.withFetchWord 8 4) = some (0x52, 1) := by decide +kernel

/-! ### One step of each instruction (95 sections 4 to 8) -/

/-- 95 section 8, "NOP while BUSY". -/
theorem test_nop_while_busy : afterStep State.status (writing 0x00000000 (expanding 16)) = some 0x21 := by decide +kernel
/-- R242's example. -/
theorem test_init_after_done : after .init (fun s => (s.status, s.n, s.blkcnt, s.h)) finished
    = some (0, 0, 0, ⟨0x67452301, 0xEFCDAB89, 0x98BADCFE, 0x10325476, 0xC3D2E1F0⟩) := by decide +kernel
/-- 95 section 8, "INIT clears the error". -/
theorem test_init_clears_errors :
    after .init (fun s => (s.status, s.n)) { tooLarge with errCmd := true } = some (0, 0) := by decide +kernel
/-- 95 section 8: the fourth byte is accepted. -/
theorem test_push_byte_exactly_max_size :
    after (.pushByte 0x64) (fun s => (s.status, s.n, s.msg.read? 3)) abc = some (0, 4, some 0x64) := by decide +kernel
/-- 95 section 8, "PUSH_BYTE at N = MAX_SIZE". -/
theorem test_push_byte_at_max_size :
    after (.pushByte 0x65) (fun s => (s.status, s.n, s.msg)) abcd = some (0x04, 4, abcd.msg) := by decide +kernel
/-- 95 section 8, "START after DONE". -/
theorem test_start_after_done :
    after .start (fun s => (s.status, s.blkcnt, s.h, s.i)) finished = some (0x11, 1, iv, 0) := by decide +kernel
/-- 95 section 8, "START after InputTooLarge". -/
theorem test_start_too_large : after .start (fun s => (s.status, s.blkcnt)) tooLarge = some (0x0C, 0) := by
  decide +kernel
/-- R211's example. -/
theorem test_load_abc :
    after .load (fun s => (s.scheduleWord 0, s.scheduleWord 1, s.scheduleWord 14, s.scheduleWord 15)) loading
      = some (0x61626380, 0, 0, 0x18) ∧
    after .load (fun s => (s.ws, s.j, s.status))  loading
      = some (⟨0x67452301, 0xEFCDAB89, 0x98BADCFE, 0x10325476, 0xC3D2E1F0⟩, 16, 0x21) := by decide +kernel
/-- Block 1 of the 56-byte message of 95 section 2.1. -/
theorem test_load_second_block :
    after .load (fun s => (List.range 16).map s.scheduleWord) { counting 56 with phase := .load, blkcnt := 2, i := 1 }
      = some [0, 0, 0, 0, 0, 0, 0, 0, 0, 0, 0, 0, 0, 0, 0, 0x000001C0] := by decide +kernel
/-- R212's example: W[16] and j. -/
theorem test_expand_first : after .expand (fun s => (s.scheduleWord 16, s.j, s.phase))
    { expanding 16 with w := abcSchedule.set 16 0 } = some (0xC2C4C700, 17, .expand) := by decide +kernel
/-- 95 sections 4.1 and 7: W[79], then ROUND. -/
theorem test_expand_last : after .expand (fun s => (s.scheduleWord 79, s.t, s.status))
    { expanding 79 with w := abcSchedule.set 79 0, t := 5 } = some (0x822E0879, 0, 0x31) := by decide +kernel
/-- R213's example. -/
theorem test_round_first : after .round (fun s => (s.ws, s.t, s.phase)) (rounding 0 (seedWorking iv))
    = some (⟨0x0116FC33, 0x67452301, 0x7BF36AE2, 0x98BADCFE, 0x10325476⟩, 1, .round) := by decide +kernel
/-- 95 sections 5.2 and 7: round 79, then ACCUM. -/
theorem test_round_last : after .round (fun s => (s.ws, s.status)) (rounding 79 row78) = some (row79, 0x41) := by
  decide +kernel
/-- R214's example. -/
theorem test_accum_abc : after .accum (fun s => (s.h, s.i, s.status)) accumulating
    = some (⟨0xA9993E36, 0x4706816A, 0xBA3E2571, 0x7850C26C, 0x9CD0D89D⟩, 1, 0x52) := by decide +kernel
/-- 95 section 7: after the first of two blocks the phase is LOAD. -/
theorem test_accum_next_block : after .accum (fun s => (s.i, s.status)) { accumulating with blkcnt := 2 }
    = some (1, 0x11) := by decide +kernel

/-! ### The register window (95 section 8) -/

theorem test_reads_after_reset :
    [0x00, 0x04, 0x08, 0x0C, 0x10, 0x14, 0x18, 0x1C, 0x20, 0x24, 0x28, 0x2C, 0x3C].map
      (fun off => afterStep (fun s => s.readData) (reading off fresh))
    = [0, 0, 0, 0, 0x67452301, 0xEFCDAB89, 0x98BADCFE, 0x10325476, 0xC3D2E1F0, 4, 0, 0, 0].map
      fun v => some (some v) := by decide +kernel
theorem test_config_trunc32 : readValue .config (State.resetWith { c4 with lenMode := .trunc32 }) = 1 := by decide
theorem test_illegal_while_busy :
    afterStep State.status (writing 0x05000000 (expanding 16)) = some 0x29 := by decide +kernel
theorem test_write_to_len_ignored : afterStep (fun s => (s.n, s.status))
    { fresh with inputs := [.host (hostWriteAt c4 0x08 7)] } = some (0, 0) := by decide +kernel
theorem test_refused_accesses :
    [⟨0x1004, 8, .read⟩, ⟨0x1004, 64, .read⟩, ⟨0x0FFC, 32, .read⟩, ⟨0x1040, 32, .read⟩, ⟨0x1002, 32, .read⟩].map
      (fun a => refusalOf (step { fresh with inputs := [.host a] }))
    = [some (.accessWidth 8), some (.accessWidth 64), some (.outsideWindow 0x0FFC), some (.outsideWindow 0x1040),
      some (.misaligned 0x1002)] := by decide +kernel
/-- A MAX_SIZE = 0 instance refuses every byte (95 section 9.8). -/
theorem test_max_size_zero : after (.pushByte 0) (fun s => (s.status, s.n)) (counting 0) = some (0x04, 0) := by
  decide +kernel
/-- R97: PUSH_STRING is a PUSH_BYTE for each byte, in order; READ_DIGEST is five reads. -/
theorem test_pseudo_operations :
    hostOpAccesses c4 (.pushString [0x61, 0x62]) = [⟨0x1000, 32, .write 0x02000061⟩, ⟨0x1000, 32, .write 0x02000062⟩] ∧
    hostOpAccesses c4 .readDigest = [0x1010, 0x1014, 0x1018, 0x101C, 0x1020].map fun a => ⟨a, 32, .read⟩ := by
  decide

/-! ### Pure functions (95 sections 1 to 6, and the rules' examples) -/

theorem test_pack : pack 0x61 0x62 0x63 0x80 = 0x61626380 ∧ pack 0 0 0 1 = 1 ∧ pack 0xFF 0 0 0 = 0xFF000000 ∧
    unpack 0xA9993E36 = (0xA9, 0x99, 0x3E, 0x36) := by decide
theorem test_block_counts : [0, 55, 56, 63, 64, 119, 120, 2 ^ 20, 2 ^ 32 - 1].map blockCount
    = [1, 1, 2, 2, 2, 2, 3, 16385, 67108865] := by decide
/-- Words 14 and 15 of the last block (95 section 2.2). -/
def lengthWords (mode : LenMode) (n : Nat) : Word × Word :=
  (padWord mode n (fun _ => 0) (16 * blockCount n - 2), padWord mode n (fun _ => 0) (16 * blockCount n - 1))
theorem test_length_words :
    [43, 536870911, 536870912, 4294967295].map (lengthWords .full64)
      = [(0, 0x158), (0, 0xFFFFFFF8), (1, 0), (7, 0xFFFFFFF8)] ∧
    [43, 536870911, 536870912, 4294967295].map (lengthWords .trunc32)
      = [(0, 0x158), (0, 0xFFFFFFF8), (0, 0), (0, 0xFFFFFFF8)] := by decide +kernel
theorem test_rotate : rotateLeft 1 0x80000000 = 1 ∧ rotateLeft 5 0x67452301 = 0xE8A4602C ∧
    rotateLeft 5 0xF8000000 = 0x1F ∧ rotateLeft 30 3 = 0xC0000000 ∧ rotateLeft 30 0xEFCDAB89 = 0x7BF36AE2 := by decide
theorem test_round_functions :
    roundFunction 0 0xFFFFFFFF 0x0F0F0F0F 0x33333333 = 0x0F0F0F0F ∧
    roundFunction 19 0xAAAAAAAA 0x0F0F0F0F 0x33333333 = 0x1B1B1B1B ∧
    roundFunction 20 0xFFFFFFFF 0xFFFFFFFF 0xFFFFFFFF = 0xFFFFFFFF ∧
    roundFunction 39 0x12345678 0x12345678 0 = 0 ∧ roundFunction 40 0xFFFFFFFF 0xFFFFFFFF 0 = 0xFFFFFFFF ∧
    roundFunction 59 0xF0F0F0F0 0xFF00FF00 0xCCCCCCCC = 0xFCC0FCC0 ∧ roundFunction 60 1 2 4 = 7 := by decide
theorem test_round_constants : [0, 19, 20, 39, 40, 59, 60, 79].map roundConstant
    = [0x5A827999, 0x5A827999, 0x6ED9EBA1, 0x6ED9EBA1, 0x8F1BBCDC, 0x8F1BBCDC, 0xCA62C1D6, 0xCA62C1D6] := by decide
/-- 95 section 5.3. -/
theorem test_round_wraps :
    roundStep 0 ⟨0xFFFFFFFF, 0xFFFFFFFF, 0xFFFFFFFF, 0xFFFFFFFF, 0xFFFFFFFF⟩ 0xFFFFFFFF
      = ⟨0x5A827995, 0xFFFFFFFF, 0xFFFFFFFF, 0xFFFFFFFF, 0xFFFFFFFF⟩ := by decide
/-- 95 section 4.1. -/
theorem test_schedule_abc :
    Reference.schedule [0x61626380, 0, 0, 0, 0, 0, 0, 0, 0, 0, 0, 0, 0, 0, 0, 0x18] = abcWords := by decide +kernel
/-- 95 section 5.3: Compress and accumulate from the zero state. -/
theorem test_compress_zero :
    accumulate ⟨0, 0, 0, 0, 0⟩ (Reference.compress ⟨0, 0, 0, 0, 0⟩ (List.replicate 16 0))
      = ⟨0x9E1547ED, 0x57EC91C2, 0x30FA8BC8, 0xC7785A54, 0xA7EFA5E3⟩ := by decide +kernel
/-- 95 section 1.1, as the 40-digit strings of R193. -/
theorem test_known_answer_empty :
    render (Reference.sha1 .full64 []) = "DA39A3EE5E6B4B0D3255BFEF95601890AFD80709".toList := by decide +kernel
/-- R193, on the digest that `finished_computes` shows to be SHA1 of "abc". -/
theorem test_known_answer_abc : render abcDigest = "A9993E364706816ABA3E25717850C26C9CD0D89D".toList := by decide
/-- 95 section 6: two blocks. -/
theorem test_known_answer_two_blocks :
    render (Reference.sha1 .full64 ((List.range 56).map (BitVec.ofNat 8)))
      = "636E2EC698DAC903498E648BD2F3AF641D3C88CB".toList := by decide +kernel

/-- R192 and R63, on the digest of "abc" (95 section 1.1). -/
theorem test_digest_value : digestValue abcDigest = 0xA9993E364706816ABA3E25717850C26C9CD0D89D := by decide
theorem test_digest_bytes : digestBytes abcDigest = [0xA9, 0x99, 0x3E, 0x36, 0x47, 0x06, 0x81, 0x6A, 0xBA, 0x3E,
    0x25, 0x71, 0x78, 0x50, 0xC2, 0x6C, 0x9C, 0xD0, 0xD8, 0x9D] := by decide

/-! ### Witnesses: states and operands that meet the hypotheses of the statements -/

theorem witness_IllegalCommandWords :
    (∃ err, decodeCommand 0x02000100 = .error err) ∧ (∃ i, decodeCommand 0x020000FF = .ok i) ∧
    (writing 0x04000000 fresh).inputs
      = .host (hostWriteAt (writing 0x04000000 fresh).cfg 0x00 0x04000000) :: [] :=
  ⟨⟨_, rfl⟩, ⟨.pushByte 0xFF, by decide⟩, rfl⟩

theorem witness_StepRunsWrittenCommand :
    (writing 0x020000FF abc).inputs
      = .host (hostWriteAt (writing 0x020000FF abc).cfg 0x00 0x020000FF) :: [] ∧
    decode (.cmd 0x020000FF) = .ok (.pushByte 0xFF) := ⟨rfl, by decide⟩

theorem witness_StepRunsCoreStep :
    (loading.inputs = [] ∧ decode (.phase (phaseCode loading.phase)) = .ok .load) ∧
    (∃ rest, { accumulating with inputs := [.core, .reset] }.inputs = .core :: rest) ∧
    decode (.phase (phaseCode accumulating.phase)) = .ok .accum :=
  ⟨⟨rfl, by decide⟩, ⟨_, rfl⟩, by decide⟩

theorem witness_CoreStepExactlyWhileBusy :
    loading.phase = .load ∧ (expanding 16).phase = .expand ∧ (rounding 0 row78).phase = .round ∧
    accumulating.phase = .accum ∧ (writing 0x03000000 abc).busy = false ∧
    (∃ s', step (writing 0x03000000 abc) = .next s' ∧ s'.phase ≠ (writing 0x03000000 abc).phase) :=
  ⟨rfl, rfl, rfl, rfl, rfl, _, rfl, by decide⟩

theorem witness_AccessesWithoutMeaningRefused :
    [(⟨0x1000, 32, .read⟩ : Access), ⟨0x103C, 32, .write 0⟩, ⟨0x1040, 32, .read⟩, ⟨0x0FFC, 32, .read⟩,
      ⟨0x103B, 32, .read⟩, ⟨0x1000, 8, .read⟩].map
      (fun a => (refusalOf (step { fresh with inputs := [.host a] })).isSome)
    = [false, false, true, true, true, true] := by decide +kernel

theorem witness_OtherWritesIgnored :
    ({ fresh with inputs := [.host (hostWriteAt fresh.cfg 0x04 1)] } : State).inputs
      = .host (hostWriteAt fresh.cfg 0x04 1) :: [] ∧ (0x04 ≠ 0 ∧ 0x04 ≤ 0x3C ∧ 0x04 % 4 = 0) ∧
    (0x3C ≠ 0 ∧ 0x3C ≤ 0x3C ∧ 0x3C % 4 = 0) := ⟨rfl, by decide, by decide⟩

/-- One read of each register, BUSY or not: ExactRegisterReads, StatusRead, DigestReads. -/
theorem witness_reads :
    (∀ off : Nat, (reading off abc).inputs = .host (hostReadAt (reading off abc).cfg off) :: []) ∧
    (∀ k : Fin 5, (reading (0x10 + 4 * k.val) loading).inputs
      = .host (hostReadAt (reading (0x10 + 4 * k.val) loading).cfg (0x10 + 4 * k.val)) :: []) ∧
    (reading 0x10 abc).busy = false ∧ (reading 0x20 loading).busy = true :=
  ⟨fun _ => rfl, fun _ => rfl, rfl, rfl⟩

theorem witness_PhaseCodes :
    [fresh, loading, expanding 16, rounding 0 row78, accumulating, finished].map
      (fun s => (s.phase, s.errTooLarge, s.errCmd))
    = [(.idle, false, false), (.load, false, false), (.expand, false, false), (.round, false, false),
      (.accum, false, false), (.done, false, false)] := by decide

/-- A HostRead of STATUS twice, while BUSY. -/
theorem witness_OnlyCommandWritesHaveEffects_busy :
    let a := hostReadAt c4 0x04
    let s : State := { loading with inputs := [.host a, .host a] }
    s.inputs = .host a :: [.host a] ∧ (∃ s', step s = .next s' ∧ ∃ s'', step s' = .next s'') ∧
    (∀ v, a ≠ hostWriteAt s.cfg 0x00 v) ∧ s.busy = true ∧
    ∀ k : Fin 5, a ≠ hostReadAt s.cfg (0x10 + 4 * k.val) :=
  ⟨rfl, ⟨_, rfl, _, rfl⟩, fun v => by simp [hostReadAt, hostWriteAt], rfl, by decide⟩

/-- A HostRead of DIGEST4 twice, while not BUSY. -/
theorem witness_OnlyCommandWritesHaveEffects :
    let a := hostReadAt c4 0x20
    let s : State := { finished with inputs := [.host a, .host a] }
    s.inputs = .host a :: [.host a] ∧ (∃ s', step s = .next s' ∧ ∃ s'', step s' = .next s'') ∧
    (∀ v, a ≠ hostWriteAt s.cfg 0x00 v) ∧ s.busy = false :=
  ⟨rfl, ⟨_, rfl, _, rfl⟩, fun v => by simp [hostReadAt, hostWriteAt], rfl⟩

theorem witness_PlatformResetValues : ({ expanding 16 with inputs := [.reset, .core] } : State).inputs
    = .reset :: [.core] := rfl

theorem witness_BusyRejection : (expanding 79).busy = true := rfl

theorem witness_PushByteResult :
    (rounding 79 row78).busy = true ∧ (abcd.busy = false ∧ abcd.n = abcd.cfg.maxSize) ∧
    ((counting 0).busy = false ∧ (counting 0).n = (counting 0).cfg.maxSize) ∧
    (abc.busy = false ∧ abc.n < abc.cfg.maxSize) ∧ (fresh.busy = false ∧ fresh.n < fresh.cfg.maxSize) := by decide

theorem witness_StartResult :
    loading.busy = true ∧ tooLarge.errTooLarge = true ∧ (finished.busy = false ∧ finished.errTooLarge = false) ∧
    (fresh.busy = false ∧ fresh.errTooLarge = false) := by decide

/-- The first and the last block, at N = MAX_SIZE. -/
theorem witness_LoadResult :
    (counting 56).n ≤ (counting 56).cfg.maxSize ∧ (counting 56).i.toNat < blockCount (counting 56).n.toNat ∧
    ({ counting 56 with i := 1 } : State).i.toNat < blockCount (counting 56).n.toNat := by decide +kernel

theorem witness_ExpandResult : (∀ j ∈ [16, 78, 79], 16 ≤ (expanding j).j.toNat ∧ (expanding j).j.toNat ≤ 79) ∧
    (expanding 78).j.toNat < 79 ∧ (expanding 79).j.toNat = 79 := by decide

theorem witness_RoundResult : (∀ t ∈ [0, 78, 79], (rounding t row78).t.toNat ≤ 79) ∧
    (rounding 78 row78).t.toNat < 79 ∧ (rounding 79 row78).t.toNat = 79 := by decide

theorem witness_AccumResult : accumulating.blkcnt ≤ accumulating.i + 1 ∧
    ({ accumulating with blkcnt := 2 } : State).i + 1 < ({ accumulating with blkcnt := 2 } : State).blkcnt := by decide

/-- The operands on both sides of each bound where the model stops. -/
theorem witness_WhereInstructionsStop :
    [0, 1].map (fun i => faultOf (exec .load { loading with i := i })) = [none, some .blockIndexOutOfRange] ∧
    [4, 5].map (fun n => faultOf (exec .load { loading with n := n })) = [none, some .messageAddressOutOfRange] ∧
    [15, 16, 79, 80].map (fun j => faultOf (exec .expand (expanding j)))
      = [some .scheduleIndexOutOfRange, none, none, some .scheduleIndexOutOfRange] ∧
    [79, 80].map (fun t => faultOf (exec .round (rounding t row78))) = [none, some .roundIndexOutOfRange] ∧
    [4, 5].map (fun n => faultOf (exec (.pushByte 0) { fresh with n := n }))
      = [none, some .messageAddressOutOfRange] := by decide +kernel

theorem witness_frames :
    (∀ i ∈ [.nop, .init, .pushByte 0x64, .start], isCommand i = true ∧ ∃ u, exec i abc = .next u) ∧
    (isCommand .load = false ∧ ∃ u, exec .load loading = .next u) ∧
    (isCommand .expand = false ∧ ∃ u, exec .expand (expanding 79) = .next u) ∧
    (isCommand .round = false ∧ ∃ u, exec .round (rounding 79 row78) = .next u) ∧
    (isCommand .accum = false ∧ ∃ u, exec .accum accumulating = .next u) := by
  refine ⟨?_, ⟨rfl, _, rfl⟩, ⟨rfl, _, rfl⟩, ⟨rfl, _, rfl⟩, ⟨rfl, _, rfl⟩⟩
  simp only [List.mem_cons, List.not_mem_nil, or_false, forall_eq_or_imp, forall_eq]
  exact ⟨⟨rfl, _, rfl⟩, ⟨rfl, _, rfl⟩, ⟨rfl, _, rfl⟩, ⟨rfl, _, rfl⟩⟩

/-- Indices, lengths and ranges at their bounds: PaddedStreamByBytes, LengthFieldModes, SpillIntoExtraBlock,
RotateLeftByBits, ScheduleRecurrence, CircularScheduleEquivalent, RoundFunctionByBits, RoundConstants. -/
theorem witness_ranges :
    (63 < 64 * blockCount ([] : List Byte).length) ∧ (2 ^ 32 - 1 < 2 ^ 32 ∧ 8 * 536870911 < 2 ^ 32) ∧
    (56 ≤ 56 % 64 ∧ 119 % 64 ≤ 55 ∧ 64 * (56 / 64 + 1) ≤ 64 ∧ 64 < paddedLength 56 - 8) ∧
    (1 ≤ 31 ∧ 31 ≤ 31 ∧ 31 < 32) ∧ (List.replicate 16 (0 : Word)).length = 16 ∧ 79 < 80 ∧
    (19 ≤ 19 ∧ 20 ≤ 20 ∧ 20 ≤ 39 ∧ 40 ≤ 59 ∧ 59 ≤ 59 ∧ 60 ≤ 79) := by decide

/-- Bytes 0, 3, 4 and 19 of the digest of "abc" (R63, 95 section 1.1), and a state whose H it is. -/
theorem witness_RenderFaithful :
    (finished.h = abcDigest ∧ finished.busy = false) ∧ (3 < 4 ∧ 19 < 20) ∧
    [0, 3, 4, 19].map (fun n => (digestBytes abcDigest).getD n 0) = [0xA9, 0x36, 0x47, 0x9D] ∧
    '9' ∈ render abcDigest ∧ 'A' ∈ render abcDigest := by decide +kernel

/-! States that meet the invariants, one in each phase. -/

/-- Three bytes in a buffer of four: the invariant is down to the control registers. -/
theorem abc_inv {s : State} (hm : s.msg = abcBytes) (hc : s.cfg = c4) (hn : s.n = 3)
    (he : s.errTooLarge = false) (hb : s.busy = true → s.blkcnt = 1 ∧ s.i = 0)
    (hj : s.phase = .expand → 16 ≤ s.j.toNat ∧ s.j.toNat ≤ 79) (ht : s.phase = .round → s.t.toNat ≤ 79) :
    s.Inv where
  lengthFits := by rw [hc, hn]; decide
  busyBlocks h := by rw [(hb h).1, (hb h).2, hn]; decide
  expandIndex := hj
  roundIndex := ht
  tooLargeIdle h := by rw [he] at h; cases h
  memoryForm := by rw [hm]; decide
  messageWritten := by rw [hm, hn]; decide
  memoryBound a h := by
    rw [hc] at h
    have : 4 ≤ a := h
    rw [hm, abcBytes]
    simp only [Memory.read?]
    rw [if_neg (by omega), if_neg (by omega), if_neg (by omega)]

theorem abc_meets_inv : abc.Inv :=
  abc_inv rfl rfl rfl rfl (fun h => by cases h) (fun h => by cases h) (fun h => by cases h)
theorem loading_meets_inv : loading.Inv :=
  abc_inv rfl rfl rfl rfl (fun _ => ⟨rfl, rfl⟩) (fun h => by cases h) (fun h => by cases h)
theorem expanding_meets_inv : (expanding 79).Inv :=
  abc_inv rfl rfl rfl rfl (fun _ => ⟨rfl, rfl⟩) (fun _ => by decide) (fun h => by cases h)
theorem rounding_meets_inv : (rounding 79 row78).Inv :=
  abc_inv rfl rfl rfl rfl (fun _ => ⟨rfl, rfl⟩) (fun h => by cases h) (fun _ => by decide)
theorem accumulating_meets_inv : accumulating.Inv :=
  abc_inv rfl rfl rfl rfl (fun _ => ⟨rfl, rfl⟩) (fun h => by cases h) (fun h => by cases h)
theorem finished_meets_inv : finished.Inv :=
  abc_inv rfl rfl rfl rfl (fun h => by cases h) (fun h => by cases h) (fun h => by cases h)
theorem tooLarge_meets_inv : tooLarge.Inv where
  lengthFits := by decide
  busyBlocks h := by cases h
  expandIndex h := by cases h
  roundIndex h := by cases h
  tooLargeIdle _ := ⟨rfl, rfl⟩
  memoryForm := by decide
  messageWritten := by decide
  memoryBound a h := by
    have : 4 ≤ a := h
    show Memory.read? [(0, 0x61), (1, 0x62), (2, 0x63), (3, 0x64)] a = none
    simp only [Memory.read?]
    rw [if_neg (by omega), if_neg (by omega), if_neg (by omega), if_neg (by omega)]

theorem abc_computes : abc.Computes where
  digestSoFar h := by cases h
  expanding h := by cases h
  rounding h := by cases h
  accumulating h := by cases h
  finished h := by cases h
theorem loading_computes : loading.Computes where
  digestSoFar _ := rfl
  expanding h := by cases h
  rounding h := by cases h
  accumulating h := by cases h
  finished h := by cases h
theorem expanding_computes : (expanding 79).Computes where
  digestSoFar _ := rfl
  expanding _ := ⟨rfl, by decide +kernel⟩
  rounding h := by cases h
  accumulating h := by cases h
  finished h := by cases h
theorem rounding_computes : (rounding 79 row78).Computes where
  digestSoFar _ := rfl
  expanding h := by cases h
  rounding _ := by decide +kernel
  accumulating h := by cases h
  finished h := by cases h
theorem accumulating_computes : accumulating.Computes where
  digestSoFar _ := rfl
  expanding h := by cases h
  rounding h := by cases h
  accumulating _ := by decide +kernel
  finished h := by cases h
theorem finished_computes : finished.Computes where
  digestSoFar h := by cases h
  expanding h := by cases h
  rounding h := by cases h
  accumulating h := by cases h
  finished _ := by decide +kernel

/-- StepKeepsInvariant and StepKeepsComputation, in every phase. -/
theorem witness_StepKeepsInvariant :
    (abc.Inv ∧ abc.Computes ∧ ∃ s', step abc = .next s') ∧
    (loading.Inv ∧ loading.Computes ∧ ∃ s', step loading = .next s') ∧
    ((expanding 79).Inv ∧ (expanding 79).Computes ∧ ∃ s', step (expanding 79) = .next s') ∧
    ((rounding 79 row78).Inv ∧ (rounding 79 row78).Computes ∧ ∃ s', step (rounding 79 row78) = .next s') ∧
    (accumulating.Inv ∧ accumulating.Computes ∧ ∃ s', step accumulating = .next s') ∧
    (finished.Inv ∧ finished.Computes ∧ ∃ s', step finished = .next s') :=
  ⟨⟨abc_meets_inv, abc_computes, _, rfl⟩, ⟨loading_meets_inv, loading_computes, _, rfl⟩,
    ⟨expanding_meets_inv, expanding_computes, _, rfl⟩, ⟨rounding_meets_inv, rounding_computes, _, rfl⟩,
    ⟨accumulating_meets_inv, accumulating_computes, _, rfl⟩, ⟨finished_meets_inv, finished_computes, _, rfl⟩⟩

/-- AccessesWithoutMeaningRefused, the clause under the invariant: a PUSH_BYTE at the first offset and a read
at the last. -/
theorem witness_AccessesWithoutMeaningRefused_step :
    (let s := writing 0x02000064 abc
     s.inputs = .host ⟨0x1000, 32, .write 0x02000064⟩ :: [] ∧ s.Inv ∧ s.cfg.regBase ≤ 0x1000 ∧
     0x1000 - s.cfg.regBase ≤ 0x3C ∧ (0x1000 - s.cfg.regBase) % 4 = 0) ∧
    (let s := reading 0x3C abc
     s.inputs = .host ⟨0x103C, 32, .read⟩ :: [] ∧ s.Inv ∧ s.cfg.regBase ≤ 0x103C ∧
     0x103C - s.cfg.regBase ≤ 0x3C ∧ (0x103C - s.cfg.regBase) % 4 = 0) :=
  ⟨⟨rfl, abc_inv rfl rfl rfl rfl (fun h => by cases h) (fun h => by cases h) (fun h => by cases h), by decide⟩,
    rfl, abc_inv rfl rfl rfl rfl (fun h => by cases h) (fun h => by cases h) (fun h => by cases h), by decide⟩

/-- NoDigestAfterTooLarge, InvariantStatesNeverStop and StatusLegal. -/
theorem witness_NoDigestAfterTooLarge : tooLarge.errTooLarge = true ∧ tooLarge.Inv ∧
    (∃ s', step tooLarge = .next s') ∧ loading.Inv ∧ loading.status.getLsbD 0 = true :=
  ⟨rfl, tooLarge_meets_inv, ⟨_, rfl⟩, loading_meets_inv, by decide⟩

/-- An access that R64 gives no step, in a state of the invariant (InvariantStatesNeverStop). -/
theorem witness_InvariantStatesNeverStop :
    let s : State := { abc with inputs := [.host ⟨0x1002, 32, .read⟩] }
    s.Inv ∧ step s = .refused (.misaligned 0x1002) :=
  ⟨abc_inv rfl rfl rfl rfl (fun h => by cases h) (fun h => by cases h) (fun h => by cases h), rfl⟩

/-- LOAD about to run on other hidden registers and another byte above the message. -/
def loadingDirty : State :=
  { loading with
    msg := abcBytes ++ [(3, 0xEE)]
    ws := row79
    w := abcSchedule
    j := 80
    t := 80
    resetCount := 7 }

/-- HiddenStateNeverObservable and SameToHostReadsAlike. -/
theorem witness_HiddenStateNeverObservable :
    SameToHost loading loadingDirty ∧ ∃ s', step loading = .next s' := by
  refine ⟨⟨rfl, rfl, rfl, rfl, rfl, rfl, rfl, rfl, rfl, rfl, by decide, fun _ => rfl, fun _ h => absurd rfl h,
    fun h => ?_, fun h => ?_, fun h => ?_, fun h => ?_⟩, _, rfl⟩ <;> cases h

theorem witness_MessageFixedWhileBusy :
    (let s := writing 0x02000064 (expanding 16)
     s.busy = true ∧ (∃ s', step s = .next s') ∧ nextAction s ≠ .instr .init ∧ nextAction s ≠ .platformReset) ∧
    (let s := writing 0x01000000 (expanding 16)
     s.busy = true ∧ (∃ s', step s = .next s') ∧ nextAction s = .instr .init) :=
  ⟨⟨rfl, ⟨_, rfl⟩, by decide, by decide⟩, rfl, ⟨_, rfl⟩, by decide⟩

/-- DigestStateWriters and ParametersNeverChange: a step of each kind that writes H. -/
theorem witness_DigestStateWriters :
    (∃ s', step accumulating = .next s') ∧ (∃ s', step (writing 0x03000000 abc) = .next s') ∧
    (∃ s', step (writing 0x01000000 tooLarge) = .next s') ∧
    (∃ s', step { finished with inputs := [.reset] } = .next s') :=
  ⟨⟨_, rfl⟩, ⟨_, rfl⟩, ⟨_, rfl⟩, _, rfl⟩

theorem witness_ErrorFlagCauses :
    (∃ s', step (writing 0x02000065 abcd) = .next s' ∧ abcd.errTooLarge = false ∧ s'.errTooLarge = true) ∧
    (∃ s', step (writing 0x02000065 loading) = .next s' ∧ loading.errCmd = false ∧ s'.errCmd = true) ∧
    (∃ s', step (writing 0x03000000 tooLarge) = .next s' ∧ tooLarge.errCmd = false ∧ s'.errCmd = true) ∧
    (∃ s', step (writing 0x04000000 fresh) = .next s' ∧ fresh.errCmd = false ∧ s'.errCmd = true) :=
  ⟨⟨_, rfl, rfl, rfl⟩, ⟨_, rfl, rfl, rfl⟩, ⟨_, rfl, rfl, rfl⟩, _, rfl, rfl, rfl⟩

/-- ErrorFlagsSticky: an error of the other kind, with a flag already set; and a step that clears both. -/
theorem witness_ErrorFlagsSticky :
    afterStep (fun s => (s.errTooLarge, s.errCmd)) (writing 0x04000000 tooLarge) = some (true, true) ∧
    afterStep (fun s => (s.errTooLarge, s.errCmd)) (writing 0x02000065 { abcd with errCmd := true })
      = some (true, true) ∧
    afterStep (fun s => (s.errTooLarge, s.errCmd)) (writing 0x01000000 { tooLarge with errCmd := true })
      = some (false, false) ∧
    nextAction (writing 0x04000000 tooLarge) = .illegalCommand ∧
    nextAction (writing 0x02000065 abcd) = .instr (.pushByte 0x65) ∧
    nextAction (writing 0x01000000 tooLarge) = .instr .init := by decide +kernel

theorem witness_ErrorPriority :
    (∃ err, decode (.cmd 0x02010061) = .error err) ∧
    ((∃ b, decode (.cmd 0x02000061) = .ok (.pushByte b)) ∧ (writing 0x02000061 loading).busy = true) ∧
    decode (.cmd 0x03000000) = .ok .start ∧
    ((writing 0x02000061 abcd).busy = false ∧ (writing 0x02000061 abcd).n = (writing 0x02000061 abcd).cfg.maxSize) ∧
    (∃ s', step (writing 0x02000061 abcd) = .next s') :=
  ⟨⟨_, rfl⟩, ⟨⟨0x61, by decide⟩, rfl⟩, by decide, ⟨rfl, rfl⟩, _, rfl⟩

theorem witness_DoneStays : finished.phase = .done ∧ ∃ s', step (reading 0x10 finished) = .next s' :=
  ⟨rfl, _, rfl⟩

/-- "abc" in a fresh buffer of four bytes, and one byte that fills it. -/
theorem witness_PushedBytesInOrder :
    (let s : State := { fresh with inputs := (hostOpAccesses c4 (.pushString [0x61, 0x62, 0x63])).map .host }
     s.busy = false ∧ s.n.toNat + [0x61, 0x62, 0x63].length ≤ s.cfg.maxSize.toNat ∧
     s.inputs = (hostOpAccesses s.cfg (.pushString [0x61, 0x62, 0x63])).map .host) ∧
    (let s : State := { abc with inputs := (hostOpAccesses c4 (.pushString [0x64])).map .host }
     s.busy = false ∧ s.n.toNat + [0x64].length ≤ s.cfg.maxSize.toNat ∧
     s.inputs = (hostOpAccesses s.cfg (.pushString [0x64])).map .host) := by
  refine ⟨⟨rfl, by decide, rfl⟩, rfl, by decide, rfl⟩

theorem witness_ComputationTakes146StepsPerBlock :
    abc.Inv ∧ abc.busy = false ∧ abc.errTooLarge = false ∧ abc.inputs = [] := ⟨abc_meets_inv, rfl, rfl, rfl⟩

/-- Whether every one of the next `k` states, this one included, is BUSY. -/
def busyRun : Nat → State → Bool
  | 0, _ => true
  | k + 1, s => s.busy && (match step s with
    | .next s' => busyRun k s'
    | .fault _ => false
    | .refused _ => false)

theorem busyRun_busy (k : Nat) : ∀ {s : State}, busyRun k s = true →
    ∀ m v, m < k → runSteps m s = .next v → v.busy = true := by
  induction k with
  | zero => intro s _ m v hm; omega
  | succ k ih =>
    intro s h m v hm hv
    simp only [busyRun, Bool.and_eq_true] at h
    cases m with
    | zero =>
      simp only [runSteps, Host.Outcome.next.injEq] at hv
      exact hv ▸ h.1
    | succ m =>
      simp only [runSteps] at hv
      generalize step s = r at h hv
      cases r with
      | next s' => exact ih h.2 m v (by omega) hv
      | fault r => cases hv
      | refused r => cases hv

/-- The run of 95 section 9.1, after START: 146 steps to DONE. -/
theorem witness_FirstDoneHoldsDigest :
    abc.Inv ∧ abc.busy = false ∧ abc.errTooLarge = false ∧ exec .start abc = .next loading ∧
    (∀ m v, m < 146 → runSteps m loading = .next v → v.busy = true) ∧
    (nextOf (runSteps 146 loading)).map (fun u => (u.phase, u.h))
      = some (.done, ⟨0xA9993E36, 0x4706816A, 0xBA3E2571, 0x7850C26C, 0x9CD0D89D⟩) := by
  have h : busyRun 146 loading = true := by decide +kernel
  exact ⟨abc_meets_inv, rfl, rfl, rfl, busyRun_busy 146 h, by decide +kernel⟩

end Sys2Proof.Tests
end

