-- ==== Sys2Proof/Proofs/Scope.lean ====
section
/-! The statements of 00_scope.md: what the registers read right after reset (R80, R300), and that no
step changes the parameters (R5). -/

namespace Sys2Proof.Machine

/-! ### The register window right after reset -/

@[simp] theorem resetWith_busy (c : Config) : (State.resetWith c).busy = false := rfl

/-- IDLE has code 0 and no flag is set, so every field of STATUS is 0 (R86, R87). -/
@[simp] theorem resetWith_status (c : Config) : (State.resetWith c).status = 0 := by
  have hdone : (State.resetWith c).isDone = false := rfl
  simp only [State.status, resetWith_busy, hdone]
  simp [State.resetWith, phaseCode]

/-- CONFIG's value as a test of LEN_MODE (R93). -/
theorem configWord_eq (c : Config) : configWord c = if c.lenMode = .trunc32 then 1 else 0 := by
  cases h : c.lenMode <;> simp [configWord, h]

/-- The words of the IV by index (R27). -/
theorem iv_word (k : Fin 5) :
    iv.word k = [0x67452301, 0xEFCDAB89, 0x98BADCFE, 0x10325476, 0xC3D2E1F0].getD k.val 0 := by
  revert k
  decide

/-- While not BUSY, DIGESTk reads H[k] (R250). -/
theorem readValue_digest_of_not_busy {s : State} (h : s.busy = false) (k : Fin 5) :
    readValue (.digest k) s = s.h.word k := by
  simp [readValue, h]

/-- Settles O17, register by register. -/
theorem resetRegisterValues : Obligations.ResetRegisterValues := by
  intro c
  refine ⟨fun r => ?_, rfl⟩
  cases r with
  | cmd => rfl
  | status => exact resetWith_status c
  | len => rfl
  | blkcnt => rfl
  | digest k => exact (readValue_digest_of_not_busy (resetWith_busy c) k).trans (iv_word k)
  | capacity => rfl
  | config => exact configWord_eq c
  | reserved k => rfl

/-! ### The parameters -/

/-- No instruction changes the parameters. -/
theorem exec_cfg {i : Instr} {s s' : State} (h : exec i s = .next s') : s'.cfg = s.cfg := by
  cases i with
  | nop => rw [execNop_next.mp h]
  | init => rw [execInit_next.mp h]
  | pushByte b => obtain ⟨_, rfl⟩ | ⟨_, _, rfl⟩ | ⟨_, _, rfl⟩ := execPushByte_next.mp h <;> rfl
  | start => obtain ⟨_, rfl⟩ | ⟨_, _, rfl⟩ := execStart_next.mp h <;> rfl
  | load => obtain ⟨_, _, rfl⟩ := execLoad_next.mp h; rfl
  | expand => obtain ⟨_, _, rfl⟩ := execExpand_next.mp h; rfl
  | round => obtain ⟨_, rfl⟩ := execRound_next.mp h; rfl
  | accum => rw [execAccum_next.mp h]

/-- Settles O57, by the cases of a step: an instruction runs, or the shared operation of the turn does. -/
theorem parametersNeverChange : Obligations.ParametersNeverChange := by
  intro s s' h
  obtain ⟨i, _, hexec⟩ | ⟨_, rfl⟩ | ⟨r, _, rfl⟩ | ⟨_, rfl⟩ | ⟨_, rfl⟩ := step_cases h
  · exact (exec_cfg hexec).trans (takeTurn_cfg s)
  · exact raiseError_cfg _ _
  · exact hostRead_cfg _ _
  · exact takeTurn_cfg s
  · exact platformReset_cfg _

end Sys2Proof.Machine
end

