-- ==== Sys2Proof/Proofs/State.lean ====
section
/-! The statements of 10_state.md: the invariants of R41 hold at reset and every step keeps them, what
changes the message (R36, R71) and H (R24), and that hidden state is never observable (R37, R40, R74). -/

namespace Sys2Proof.Machine

variable {s s' u : State}

/-! ### Shared facts -/

theorem busy_of_phase_eq {p : Phase} (hp : s.phase = p) : s.busy = phaseBusy p := congrArg phaseBusy hp

theorem phase_ne_idle_of_busy (hb : s.busy = true) : s.phase ≠ .idle := by
  intro hp
  simp [busy_of_phase_eq hp, phaseBusy] at hb

theorem raiseError_commandError (s : State) :
    raiseError .commandError s = { s with errCmd := true } := by
  simp [raiseError]

/-! ### R41 items 1, 2, 3 and 5 -/

theorem blockCount_pos (n : Nat) : 0 < blockCount n := by simp [blockCount]

/-- The block count of any message length is a 32-bit number (R23, R28). -/
theorem blockCount_lt (n : BitVec 32) : blockCount n.toNat < 2 ^ 32 := by
  have := n.isLt
  simp only [blockCount]
  omega

theorem toNat_ofNat_blockCount (n : BitVec 32) :
    (BitVec.ofNat 32 (blockCount n.toNat)).toNat = blockCount n.toNat :=
  Nat.mod_eq_of_lt (blockCount_lt n)

/-- The invariant reads neither ERR_CMD nor the model's fields for the Host. -/
theorem State.Inv.frame (h : s.Inv) (e : Bool) (r : Option Word) (d : Nat) (l : List Turn) :
    State.Inv { s with errCmd := e, readData := r, drawCount := d, inputs := l } :=
  { h with }

theorem State.Inv.takeTurn (h : s.Inv) : (takeTurn s).Inv := h.frame _ _ _ _

/-- In IDLE the invariant only speaks of N and MSG. -/
theorem State.Inv.of_idle (hp : s.phase = .idle) (hn : s.n ≤ s.cfg.maxSize)
    (hlarge : s.errTooLarge = true → s.n = s.cfg.maxSize) (hform : s.msg.wf = true)
    (hwritten : ∀ a, a < s.n.toNat → (s.msg.read? a).isSome = true)
    (hbound : ∀ a, s.cfg.maxSize.toNat ≤ a → s.msg.read? a = none) : s.Inv where
  lengthFits := hn
  busyBlocks := by simp [State.busy, hp, phaseBusy]
  expandIndex := by simp [hp]
  roundIndex := by simp [hp]
  tooLargeIdle he := ⟨hlarge he, hp⟩
  memoryForm := hform
  messageWritten := hwritten
  memoryBound := hbound

/-- Once the message is kept and ERR_TOO_LARGE is clear, only the items on BUSY are left to show. -/
theorem State.Inv.of_same_message (h : s.Inv) (hcfg : u.cfg = s.cfg) (hn : u.n = s.n)
    (hm : u.msg = s.msg) (hlarge : u.errTooLarge = false)
    (hblocks : u.busy = true → u.blkcnt = BitVec.ofNat 32 (blockCount u.n.toNat) ∧ u.i < u.blkcnt)
    (hexpand : u.phase = .expand → 16 ≤ u.j.toNat ∧ u.j.toNat ≤ 79)
    (hround : u.phase = .round → u.t.toNat ≤ 79) : u.Inv where
  lengthFits := by rw [hn, hcfg]; exact h.lengthFits
  busyBlocks := hblocks
  expandIndex := hexpand
  roundIndex := hround
  tooLargeIdle := by simp [hlarge]
  memoryForm := hm ▸ h.memoryForm
  messageWritten := by rw [hn, hm]; exact h.messageWritten
  memoryBound := by rw [hcfg, hm]; exact h.memoryBound

/-- Item 5: ERR_TOO_LARGE is set in IDLE only. -/
theorem State.Inv.errTooLarge_of_phase_ne_idle (h : s.Inv) (hp : s.phase ≠ .idle) :
    s.errTooLarge = false :=
  Bool.eq_false_iff.mpr fun he => hp (h.tooLargeIdle he).2

theorem execInit_inv (h : s.Inv) (hx : execInit s = .next s') : s'.Inv := by
  rw [execInit_next.mp hx]
  exact .of_idle rfl (Nat.zero_le _) nofun h.memoryForm nofun h.memoryBound

theorem execPushByte_inv {b : Byte} (h : s.Inv) (hx : execPushByte b s = .next s') : s'.Inv := by
  obtain ⟨_, rfl⟩ | ⟨_, hfull, rfl⟩ | ⟨_, hlt, rfl⟩ := execPushByte_next.mp hx
  · exact h.frame _ _ _ _
  · exact .of_idle rfl h.lengthFits (fun _ => hfull) h.memoryForm h.messageWritten h.memoryBound
  · have hn : (s.n + 1).toNat = s.n.toNat + 1 := by bv_omega
    refine .of_idle rfl (by bv_omega) (fun he => ?_) (Memory.wf_write _ _ _ h.memoryForm)
      (fun a ha => ?_) (fun a ha => ?_)
    · have := (h.tooLargeIdle he).1
      bv_omega
    · simp only [hn] at ha
      rw [Memory.read?_write]
      split
      · rfl
      · exact h.messageWritten a (by omega)
    · have hne : a ≠ s.n.toNat := by
        have : s.n.toNat < s.cfg.maxSize.toNat := hlt
        have : s.cfg.maxSize.toNat ≤ a := ha
        omega
      rw [Memory.read?_write_other _ _ _ hne]
      exact h.memoryBound a ha

theorem execStart_inv (h : s.Inv) (hx : execStart s = .next s') : s'.Inv := by
  obtain ⟨_, rfl⟩ | ⟨_, hlarge, rfl⟩ := execStart_next.mp hx
  · exact h.frame _ _ _ _
  · refine h.of_same_message rfl rfl rfl hlarge (fun _ => ⟨rfl, ?_⟩) nofun nofun
    rw [BitVec.lt_def, toNat_ofNat_blockCount]
    exact blockCount_pos _

theorem execLoad_inv (h : s.Inv) (hp : s.phase = .load) (hx : execLoad s = .next s') : s'.Inv := by
  obtain ⟨_, _, rfl⟩ := execLoad_next.mp hx
  exact h.of_same_message rfl rfl rfl (h.errTooLarge_of_phase_ne_idle (by simp [hp]))
    (fun _ => h.busyBlocks (busy_of_phase_eq hp)) (fun _ => by simp) nofun

theorem execExpand_inv (h : s.Inv) (hp : s.phase = .expand) (hx : execExpand s = .next s') :
    s'.Inv := by
  obtain ⟨h16, h79, rfl⟩ := execExpand_next.mp hx
  refine h.of_same_message rfl rfl rfl (h.errTooLarge_of_phase_ne_idle (by simp [hp]))
    (fun _ => h.busyBlocks (busy_of_phase_eq hp)) ?_ ?_
  · dsimp only
    split
    · nofun
    · exact fun _ => ⟨by bv_omega, by bv_omega⟩
  · dsimp only
    split
    · exact fun _ => by decide
    · simp [hp]

theorem execRound_inv (h : s.Inv) (hp : s.phase = .round) (hx : execRound s = .next s') : s'.Inv := by
  obtain ⟨h79, rfl⟩ := execRound_next.mp hx
  refine h.of_same_message rfl rfl rfl (h.errTooLarge_of_phase_ne_idle (by simp [hp]))
    (fun _ => h.busyBlocks (busy_of_phase_eq hp)) ?_ ?_
  · dsimp only
    split
    · nofun
    · simp [hp]
  · dsimp only
    split
    · nofun
    · exact fun _ => by bv_omega

theorem execAccum_inv (h : s.Inv) (hp : s.phase = .accum) (hx : execAccum s = .next s') : s'.Inv := by
  rw [execAccum_next.mp hx]
  have hlarge := h.errTooLarge_of_phase_ne_idle (by simp [hp])
  by_cases hlt : s.i + 1 < s.blkcnt
  · simp only [if_pos hlt]
    exact h.of_same_message rfl rfl rfl hlarge
      (fun _ => ⟨(h.busyBlocks (busy_of_phase_eq hp)).1, hlt⟩) nofun nofun
  · simp only [if_neg hlt]
    exact h.of_same_message rfl rfl rfl hlarge nofun nofun nofun

theorem platformReset_inv (s : State) : (platformReset s).Inv :=
  .of_idle rfl (Nat.zero_le _) nofun rfl nofun (fun _ _ => rfl)

theorem resetWith_inv (c : Config) : (State.resetWith c).Inv :=
  .of_idle rfl (Nat.zero_le _) nofun rfl nofun (fun _ _ => rfl)

/-- Settles O45, by the cases of a step; a core step runs in its own phase only. -/
theorem stepKeepsInvariant : Obligations.StepKeepsInvariant := by
  intro s s' hs h
  obtain ⟨i, hact, hx⟩ | ⟨_, rfl⟩ | ⟨r, _, rfl⟩ | ⟨_, rfl⟩ | ⟨_, rfl⟩ := step_cases h
  · have hs := hs.takeTurn
    cases i with
    | nop => exact execNop_next.mp hx ▸ hs
    | init => exact execInit_inv hs hx
    | pushByte b => exact execPushByte_inv hs hx
    | start => exact execStart_inv hs hx
    | load => exact execLoad_inv hs (phase_of_load (s := s) hact) hx
    | expand => exact execExpand_inv hs (phase_of_expand (s := s) hact) hx
    | round => exact execRound_inv hs (phase_of_round (s := s) hact) hx
    | accum => exact execAccum_inv hs (phase_of_accum (s := s) hact) hx
  · rw [raiseError_commandError]
    exact hs.frame _ _ _ _
  · exact hs.frame _ _ _ _
  · exact hs.takeTurn
  · exact platformReset_inv _

/-! ### The padded stream and the schedule of the reference (R114 to R120, R142) -/

namespace Reference

theorem bigEndian64_length (v : Nat) : (bigEndian64 v).length = 8 := by simp [bigEndian64]

theorem lengthField_eq (mode : LenMode) (n : Nat) :
    lengthField mode n = BitVec.ofNat 64 (lengthValue mode n) := by
  cases mode <;> rfl

/-- The length field of the padder and that of the reference have the same bytes (R117). -/
theorem bigEndian64_getD (mode : LenMode) (n : Nat) {p : Nat} (hp : p < 8) :
    (bigEndian64 (lengthValue mode n)).getD p 0 = lengthByte mode n p := by
  have hpow : 256 ^ (7 - p) = 2 ^ (56 - 8 * p) := by
    rw [show 256 = 2 ^ 8 from rfl, ← Nat.pow_mul]
    congr 1
    omega
  rw [List.getD_eq_getElem _ _ (by simpa [bigEndian64] using hp)]
  simp only [bigEndian64, List.getElem_map, List.getElem_range, hpow, lengthByte, lengthField_eq]
  apply BitVec.eq_of_getLsbD_eq
  intro b hb
  have hbit : 56 - 8 * p + b < 64 := by omega
  rw [BitVec.getLsbD_ofNat, BitVec.getLsbD_extractLsb', BitVec.getLsbD_ofNat]
  simp [hb, hbit, ← Nat.shiftRight_eq_div_pow]

theorem paddedStream_length (mode : LenMode) (msg : List Byte) :
    (paddedStream mode msg).length = paddedLength msg.length := by
  simp only [paddedStream, List.length_append, List.length_cons, List.length_replicate,
    bigEndian64_length, zeroFill, paddedLength, blockCount]
  omega

/-- Where the zero fill ends (R116, R117). -/
theorem zeroFill_end (n : Nat) : n + 1 + zeroFill n = paddedLength n - 8 := by
  simp only [zeroFill, paddedLength, blockCount]
  omega

/-- Byte k of the stream made part by part is PadByte(k) (R114, R119). -/
theorem paddedStream_getD (mode : LenMode) (msg : List Byte) {k : Nat}
    (hk : k < paddedLength msg.length) :
    (paddedStream mode msg).getD k 0 = padByte mode msg.length (fun a => msg.getD a 0) k := by
  have hend := zeroFill_end msg.length
  unfold padByte paddedStream
  split
  · next h => exact List.getD_append _ _ _ _ h
  · next h =>
    rw [List.getD_append_right _ _ _ _ (by omega)]
    split
    · next h => simp [h]
    · next hne =>
      obtain ⟨q, hq⟩ : ∃ q, k - msg.length = q + 1 := ⟨k - msg.length - 1, by omega⟩
      rw [hq, List.getD_cons_succ]
      split
      · rw [List.getD_append _ _ _ _ (by simp; omega)]
        exact List.getD_replicate _ (by omega)
      · rw [List.getD_append_right _ _ _ _ (by simp; omega), List.length_replicate,
          show q - zeroFill msg.length = k - (paddedLength msg.length - 8) by omega]
        exact bigEndian64_getD mode _ (by omega)

/-- The 16 words of block i are those the padder gives (R119, R120). -/
theorem blockWords_getD (mode : LenMode) (msg : List Byte) {i k : Nat}
    (hi : i < blockCount msg.length) (hk : k < 16) :
    (blockWords mode msg i).getD k 0
      = blockWord mode msg.length (fun a => msg.getD a 0) i k := by
  have hlen : 4 * (16 * i + k) + 4 ≤ paddedLength msg.length := by
    simp only [paddedLength]
    omega
  have hget : (blockWords mode msg i).getD k 0
      = (packWords (paddedStream mode msg)).getD (16 * i + k) 0 := by
    simp [blockWords, hk, List.getD_eq_getElem?_getD]
  rw [hget, packWords_getD _ _ (by rwa [paddedStream_length])]
  simp only [blockWord, padWord]
  congr 1 <;> exact paddedStream_getD mode msg (by omega)

theorem blockWords_length (mode : LenMode) (msg : List Byte) {i : Nat}
    (hi : i < blockCount msg.length) : (blockWords mode msg i).length = 16 := by
  simp only [blockWords, List.length_take, List.length_drop, packWords_length, paddedStream_length,
    paddedLength]
  omega

/-- Appending at least 16 words computes each new entry by the recurrence (R142). -/
theorem extendSchedule_recurrence : ∀ (k : Nat) (l : List Word) (j : Nat), 16 ≤ l.length →
    l.length ≤ j → j < l.length + k →
    (extendSchedule k l).getD j 0 = scheduleStep ((extendSchedule k l).getD (j - 3) 0)
      ((extendSchedule k l).getD (j - 8) 0) ((extendSchedule k l).getD (j - 14) 0)
      ((extendSchedule k l).getD (j - 16) 0)
  | 0, l, j, _, hlo, hhi => by omega
  | k + 1, l, j, h16, hlo, hhi => by
    rw [extendSchedule]
    obtain rfl | hlt := Nat.eq_or_lt_of_le hlo
    · iterate 5 rw [extendSchedule_prefix k _ _ (by simp)]
      iterate 4 rw [List.getD_append _ _ _ (_ - _) (by omega)]
      simp
    · exact extendSchedule_recurrence k _ j (by simp; omega) (by simpa using hlt) (by simp; omega)

theorem schedule_recurrence {block : List Word} (hb : block.length = 16) {j : Nat} (hlo : 16 ≤ j)
    (hhi : j < 80) :
    (schedule block).getD j 0 = scheduleStep ((schedule block).getD (j - 3) 0)
      ((schedule block).getD (j - 8) 0) ((schedule block).getD (j - 14) 0)
      ((schedule block).getD (j - 16) 0) :=
  extendSchedule_recurrence 64 block j hb.ge (by omega) (by omega)

theorem schedule_getD_block {block : List Word} (hb : block.length = 16) {k : Nat} (hk : k < 16) :
    (schedule block).getD k 0 = block.getD k 0 :=
  extendSchedule_prefix 64 block k (by omega)

end Reference
/-! ### R41 item 4: the tie to SHA1 (R191, R192) -/

/-- The tie reads neither error flag nor the model's fields for the Host. -/
theorem State.Computes.frame (h : s.Computes) (a b : Bool) (r : Option Word) (d : Nat)
    (l : List Turn) : State.Computes
      { s with errTooLarge := a, errCmd := b, readData := r, drawCount := d, inputs := l } :=
  { h with }

theorem State.Computes.takeTurn (h : s.Computes) : (takeTurn s).Computes := h.frame _ _ _ _ _

/-- In IDLE no computation stands. -/
theorem State.Computes.of_idle (hp : s.phase = .idle) : s.Computes := by
  constructor <;> simp [State.busy, hp, phaseBusy]

/-- Before LOAD only H has been computed. -/
theorem State.Computes.of_load (hp : s.phase = .load)
    (hh : s.h = Reference.hashBlocks s.cfg.lenMode s.message s.i.toNat) : s.Computes := by
  constructor <;> simp [hp, hh]

/-- Item 2 as numbers: the block being processed is one of the message's. -/
theorem State.Inv.blockIndex_lt (h : s.Inv) (hb : s.busy = true) :
    s.i.toNat < blockCount s.n.toNat := by
  obtain ⟨hcnt, hi⟩ := h.busyBlocks hb
  rwa [hcnt, BitVec.lt_def, toNat_ofNat_blockCount] at hi

/-- The padder's words, read from MSG, are the first words of the block's schedule (R120, R141). -/
theorem blockWord_eq_blockSchedule (hi : s.i.toNat < blockCount s.n.toNat) {k : Nat} (hk : k < 16) :
    blockWord s.cfg.lenMode s.n.toNat s.messageByte s.i.toNat k = s.blockSchedule.getD k 0 := by
  rw [← message_length] at hi
  rw [State.blockSchedule, Reference.schedule_getD_block (Reference.blockWords_length _ _ hi) hk,
    Reference.blockWords_getD _ _ hi hk, message_length]
  exact blockWord_congr fun a ha => (message_getD s ha).symm

/-- With entries below j in place, EXPAND computes entry j of the block's schedule (R142). -/
theorem nextEntry_eq_blockSchedule (hi : s.i.toNat < blockCount s.n.toNat) (h16 : 16 ≤ s.j.toNat)
    (h79 : s.j.toNat ≤ 79)
    (hw : ∀ k, k < s.j.toNat → s.scheduleWord k = s.blockSchedule.getD k 0) :
    nextEntry s = s.blockSchedule.getD s.j.toNat 0 := by
  rw [← message_length] at hi
  rw [nextEntry, hw _ (by omega), hw _ (by omega), hw _ (by omega), hw _ (by omega)]
  exact (Reference.schedule_recurrence (Reference.blockWords_length _ _ hi) h16 (by omega)).symm

theorem execPushByte_computes {b : Byte} (h : s.Computes) (hx : execPushByte b s = .next s') :
    s'.Computes := by
  obtain ⟨_, rfl⟩ | ⟨_, _, rfl⟩ | ⟨_, _, rfl⟩ := execPushByte_next.mp hx
  · exact h.frame _ _ _ _ _
  · exact .of_idle rfl
  · exact .of_idle rfl

theorem execStart_computes (h : s.Computes) (hx : execStart s = .next s') : s'.Computes := by
  obtain ⟨_, rfl⟩ | ⟨_, _, rfl⟩ := execStart_next.mp hx
  · exact h.frame _ _ _ _ _
  · exact .of_load rfl rfl

theorem execLoad_computes (h : s.Computes) (hp : s.phase = .load) (hx : execLoad s = .next s') :
    s'.Computes := by
  obtain ⟨_, hi, rfl⟩ := execLoad_next.mp hx
  refine ⟨fun _ => h.digestSoFar (busy_of_phase_eq hp), fun _ => ⟨rfl, fun k hk => ?_⟩, nofun, nofun,
    nofun⟩
  exact (wordAt_loadSchedule _ _ _).trans
    ((if_pos hk).trans (blockWord_eq_blockSchedule hi hk))

theorem execExpand_computes (hs : s.Inv) (h : s.Computes) (hp : s.phase = .expand)
    (hx : execExpand s = .next s') : s'.Computes := by
  obtain ⟨h16, h79, rfl⟩ := execExpand_next.mp hx
  have hbusy : s.busy = true := busy_of_phase_eq hp
  obtain ⟨hws, hw⟩ := h.expanding hp
  have hw' : ∀ k, k < s.j.toNat + 1 →
      wordAt (s.w.setIfInBounds s.j.toNat (nextEntry s)) k = s.blockSchedule.getD k 0 := by
    intro k hk
    rw [wordAt_set _ _ _ (by omega)]
    split
    · next hkj => rw [hkj, nextEntry_eq_blockSchedule (hs.blockIndex_lt hbusy) h16 h79 hw]
    · exact hw k (by omega)
  by_cases hj : s.j = 79
  · have hj' : s.j.toNat = 79 := by simp [hj]
    simp only [if_pos hj]
    exact ⟨fun _ => h.digestSoFar hbusy, nofun, fun _ => ⟨hws, fun k hk => hw' k (by omega)⟩, nofun,
      nofun⟩
  · have hj' : (s.j + 1).toNat = s.j.toNat + 1 := by bv_omega
    simp only [if_neg hj]
    refine ⟨fun _ => h.digestSoFar hbusy, fun _ => ⟨hws, fun k hk => hw' k ?_⟩, ?_, ?_, ?_⟩
    · exact hj' ▸ hk
    all_goals simp [hp]

theorem execRound_computes (h : s.Computes) (hp : s.phase = .round) (hx : execRound s = .next s') :
    s'.Computes := by
  obtain ⟨h79, rfl⟩ := execRound_next.mp hx
  have hbusy : s.busy = true := busy_of_phase_eq hp
  obtain ⟨hws, hw⟩ := h.rounding hp
  have hws' : roundStep s.t.toNat s.ws (s.scheduleWord s.t.toNat)
      = Reference.roundsTo s.blockSchedule (seedWorking s.h) (s.t.toNat + 1) := by
    rw [Reference.roundsTo, ← hws, hw _ (by omega)]
  by_cases ht : s.t = 79
  · have ht' : s.t.toNat + 1 = 80 := by simp [ht]
    rw [ht'] at hws'
    simp only [if_pos ht]
    exact ⟨fun _ => h.digestSoFar hbusy, nofun, nofun, fun _ => hws', nofun⟩
  · have ht' : (s.t + 1).toNat = s.t.toNat + 1 := by bv_omega
    rw [← ht'] at hws'
    simp only [if_neg ht]
    refine ⟨fun _ => h.digestSoFar hbusy, ?_, fun _ => ⟨hws', hw⟩, ?_, ?_⟩ <;> simp [hp]

theorem execAccum_computes (hs : s.Inv) (h : s.Computes) (hp : s.phase = .accum)
    (hx : execAccum s = .next s') : s'.Computes := by
  rw [execAccum_next.mp hx]
  have hbusy : s.busy = true := busy_of_phase_eq hp
  obtain ⟨hcnt, hi⟩ := hs.busyBlocks hbusy
  have hh : accumulate s.h s.ws
      = Reference.hashBlocks s.cfg.lenMode s.message (s.i.toNat + 1) := by
    rw [Reference.hashBlocks, ← h.digestSoFar hbusy, ← h.accumulating hp]
  have hi' : (s.i + 1).toNat = s.i.toNat + 1 := by bv_omega
  by_cases hlast : s.i + 1 < s.blkcnt
  · simp only [if_pos hlast]
    exact .of_load rfl (hi' ▸ hh)
  · have hall : s.i.toNat + 1 = blockCount s.n.toNat := by
      have := hs.blockIndex_lt hbusy
      rw [BitVec.lt_def, hcnt, toNat_ofNat_blockCount, hi'] at hlast
      omega
    simp only [if_neg hlast]
    refine ⟨nofun, nofun, nofun, nofun, fun _ => ⟨hcnt, hh.trans ?_⟩⟩
    rw [hall, ← message_length, Reference.sha1]
    rfl

/-- Settles O46, by the cases of a step; the invariant of R41 gives EXPAND and ACCUM that block i is one
of the message's. -/
theorem stepKeepsComputation : Obligations.StepKeepsComputation := by
  intro s s' hs hc h
  obtain ⟨i, hact, hx⟩ | ⟨_, rfl⟩ | ⟨r, _, rfl⟩ | ⟨_, rfl⟩ | ⟨_, rfl⟩ := step_cases h
  · have hs := hs.takeTurn
    have hc := hc.takeTurn
    cases i with
    | nop => exact execNop_next.mp hx ▸ hc
    | init => exact .of_idle (execInit_next.mp hx ▸ rfl)
    | pushByte b => exact execPushByte_computes hc hx
    | start => exact execStart_computes hc hx
    | load => exact execLoad_computes hc (phase_of_load (s := s) hact) hx
    | expand => exact execExpand_computes hs hc (phase_of_expand (s := s) hact) hx
    | round => exact execRound_computes hc (phase_of_round (s := s) hact) hx
    | accum => exact execAccum_computes hs hc (phase_of_accum (s := s) hact) hx
  · exact hc.frame _ _ _ _ _
  · exact hc.frame _ _ _ _ _
  · exact hc.takeTurn
  · exact .of_idle rfl

/-- Settles O44: right after reset the phase is IDLE, where N is 0 and no computation stands. -/
theorem resetMeetsInvariants : Obligations.ResetMeetsInvariants :=
  fun c => ⟨resetWith_inv c, .of_idle rfl⟩

/-! ### No step of the invariant's states faults (R41, R64, R273) -/

theorem regAtOffset_of_aligned :
    ∀ off, off ≤ 0x3C → off % 4 = 0 → ∃ r, regAtOffset off = some r := by
  simp only [← Option.isSome_iff_exists]
  decide

/-- A well-formed access names a register (R64). -/
theorem accessedRegister_of_wellFormed {c : Config} {a : Access} (h : a.wellFormed c = true) :
    ∃ r, accessedRegister c a = .ok r := by
  simp only [Access.wellFormed, Bool.and_eq_true, beq_iff_eq, decide_eq_true_eq] at h
  obtain ⟨⟨⟨hwidth, hlo⟩, hhi⟩, halign⟩ := h
  obtain ⟨r, hr⟩ := regAtOffset_of_aligned _ hhi halign
  refine ⟨r, ?_⟩
  rw [accessedRegister, if_neg (by simp [hwidth]), if_neg (by omega), hr]

theorem accessAction_refuse {c : Config} {a : Access} {r : Refusal}
    (h : accessAction c a = .refuse r) : accessedRegister c a = .error r := by
  unfold accessAction at h
  split at h
  · next hreg => cases h; exact hreg
  · repeat' split at h
    all_goals cases h

/-- Only an ill-formed host access is refused (log 14). -/
theorem nextAction_refuse {r : Refusal} (h : nextAction s = .refuse r) :
    ∃ a rest, s.inputs = .host a :: rest ∧ a.wellFormed s.cfg = false := by
  have hcore : coreAction s ≠ .refuse r := by
    obtain ⟨_, h⟩ | ⟨_, h⟩ | ⟨_, h⟩ | ⟨_, h⟩ | ⟨_, h⟩ := coreAction_cases s <;> simp [h]
  unfold nextAction at h
  split at h
  · exact absurd h hcore
  · exact absurd h hcore
  · next a rest hin =>
    refine ⟨a, rest, hin, Bool.eq_false_iff.mpr fun hwf => ?_⟩
    obtain ⟨reg, hreg⟩ := accessedRegister_of_wellFormed hwf
    rw [accessAction_refuse h] at hreg
    cases hreg
  · cases h

theorem execPushByte_exists_next (hs : s.Inv) (b : Byte) : ∃ s', execPushByte b s = .next s' := by
  simp only [execPushByte_next]
  cases hb : s.busy with
  | true => exact ⟨_, .inl ⟨rfl, rfl⟩⟩
  | false =>
    obtain hlt | heq := Nat.lt_or_eq_of_le hs.lengthFits
    · exact ⟨_, .inr (.inr ⟨rfl, hlt, rfl⟩)⟩
    · exact ⟨_, .inr (.inl ⟨rfl, BitVec.eq_of_toNat_eq heq, rfl⟩)⟩

theorem execStart_exists_next (s : State) : ∃ s', execStart s = .next s' := by
  unfold execStart
  split
  · exact ⟨_, rfl⟩
  · split <;> exact ⟨_, rfl⟩

/-- In the states of R41 every instruction that a turn runs has its operands in range. -/
theorem exec_exists_next (hs : s.Inv) {i : Instr} (hact : nextAction s = .instr i) :
    ∃ s', exec i (takeTurn s) = .next s' := by
  have ht := hs.takeTurn
  cases i with
  | nop => exact ⟨_, rfl⟩
  | init => exact ⟨_, rfl⟩
  | pushByte b => exact execPushByte_exists_next ht b
  | start => exact execStart_exists_next _
  | load =>
    have hi := hs.blockIndex_lt (busy_of_phase_eq (phase_of_load hact))
    exact ⟨_, execLoad_next.mpr ⟨hs.lengthFits, hi, rfl⟩⟩
  | expand =>
    obtain ⟨h16, h79⟩ := hs.expandIndex (phase_of_expand hact)
    exact ⟨_, execExpand_next.mpr ⟨h16, h79, rfl⟩⟩
  | round => exact ⟨_, execRound_next.mpr ⟨hs.roundIndex (phase_of_round hact), rfl⟩⟩
  | accum => exact ⟨_, execAccum_next.mpr rfl⟩

/-- A step from a state of R41 answers a next state, or refuses what its turn asks for. -/
theorem State.Inv.step_next_or_refused (hs : s.Inv) :
    (∃ s', step s = .next s') ∨ ∃ r, nextAction s = .refuse r ∧ step s = .refused r := by
  cases hact : nextAction s with
  | instr i => exact .inl (step_of_instr hact ▸ exec_exists_next hs hact)
  | refuse r => exact .inr ⟨r, rfl, by simp [step, hact]⟩
  | _ => exact .inl (by simp [step, hact])

/-- Settles O47. -/
theorem invariantStatesNeverStop : Obligations.InvariantStatesNeverStop := by
  intro s hs
  obtain ⟨s', hstep⟩ | ⟨r, hact, hstep⟩ := hs.step_next_or_refused
  · simp [hstep]
  · exact ⟨by simp [hstep], fun _ _ => nextAction_refuse hact⟩

/-! ### What changes the message while BUSY, and H (R24, R36, R71) -/

/-- While BUSY no instruction but INIT changes the message, its length or BLKCNT, or goes to IDLE. -/
theorem exec_keeps_message_while_busy {i : Instr} (hb : s.busy = true) (hi : i ≠ .init)
    (hx : exec i s = .next s') :
    s'.message = s.message ∧ s'.n = s.n ∧ s'.blkcnt = s.blkcnt ∧ s'.phase ≠ .idle := by
  have hp : s.phase ≠ .idle := phase_ne_idle_of_busy hb
  cases i with
  | nop => obtain rfl := execNop_next.mp hx; exact ⟨rfl, rfl, rfl, hp⟩
  | init => exact absurd rfl hi
  | pushByte b =>
    obtain ⟨_, rfl⟩ | ⟨hb', _⟩ | ⟨hb', _⟩ := execPushByte_next.mp hx
    · exact ⟨rfl, rfl, rfl, hp⟩
    all_goals simp [hb] at hb'
  | start =>
    obtain ⟨_, rfl⟩ | ⟨hb', _⟩ := execStart_next.mp hx
    · exact ⟨rfl, rfl, rfl, hp⟩
    · simp [hb] at hb'
  | load => obtain ⟨_, _, rfl⟩ := execLoad_next.mp hx; exact ⟨rfl, rfl, rfl, nofun⟩
  | expand =>
    obtain ⟨_, _, rfl⟩ := execExpand_next.mp hx
    refine ⟨rfl, rfl, rfl, ?_⟩
    dsimp only
    split
    · nofun
    · exact hp
  | round =>
    obtain ⟨_, rfl⟩ := execRound_next.mp hx
    refine ⟨rfl, rfl, rfl, ?_⟩
    dsimp only
    split
    · nofun
    · exact hp
  | accum =>
    rw [execAccum_next.mp hx]
    refine ⟨rfl, rfl, rfl, ?_⟩
    dsimp only
    split <;> nofun

/-- Settles O51, by the cases of a step. -/
theorem messageFixedWhileBusy : Obligations.MessageFixedWhileBusy := by
  intro s s' hb h
  have hp : s.phase ≠ .idle := phase_ne_idle_of_busy hb
  obtain ⟨i, hact, hx⟩ | ⟨hact, rfl⟩ | ⟨r, hact, rfl⟩ | ⟨hact | hact, rfl⟩ | ⟨hact, rfl⟩ :=
    step_cases h <;> simp only [hact]
  · refine ⟨fun hi _ => exec_keeps_message_while_busy (s := takeTurn s) hb (by simpa using hi) hx, ?_⟩
    rintro (⟨⟨⟩⟩ | ⟨⟨⟩⟩)
    rw [execInit_next.mp hx]
  · exact ⟨fun _ _ => ⟨rfl, rfl, rfl, hp⟩, by simp⟩
  · exact ⟨fun _ _ => ⟨rfl, rfl, rfl, hp⟩, by simp⟩
  · exact ⟨fun _ _ => ⟨rfl, rfl, rfl, hp⟩, by simp⟩
  · exact ⟨fun _ _ => ⟨rfl, rfl, rfl, hp⟩, by simp⟩
  · exact ⟨fun _ hreset => absurd rfl hreset, fun _ => rfl⟩

/-- What an instruction leaves in H (R24). -/
theorem exec_digest {i : Instr} (hx : exec i s = .next s') :
    s'.h = s.h ∨ ((i = .init ∨ i = .start) ∧ s'.h = iv) ∨
      (i = .accum ∧ s'.h = accumulate s.h s.ws) := by
  cases i with
  | nop => exact .inl (execNop_next.mp hx ▸ rfl)
  | init => exact .inr (.inl ⟨.inl rfl, execInit_next.mp hx ▸ rfl⟩)
  | pushByte b =>
    obtain ⟨_, rfl⟩ | ⟨_, _, rfl⟩ | ⟨_, _, rfl⟩ := execPushByte_next.mp hx <;> exact .inl rfl
  | start =>
    obtain ⟨_, rfl⟩ | ⟨_, _, rfl⟩ := execStart_next.mp hx
    · exact .inl rfl
    · exact .inr (.inl ⟨.inr rfl, rfl⟩)
  | load => obtain ⟨_, _, rfl⟩ := execLoad_next.mp hx; exact .inl rfl
  | expand => obtain ⟨_, _, rfl⟩ := execExpand_next.mp hx; exact .inl rfl
  | round => obtain ⟨_, rfl⟩ := execRound_next.mp hx; exact .inl rfl
  | accum => exact .inr (.inr ⟨rfl, execAccum_next.mp hx ▸ rfl⟩)

/-- Settles O52, by the cases of a step. -/
theorem digestStateWriters : Obligations.DigestStateWriters := by
  intro s s' h
  obtain ⟨i, hact, hx⟩ | ⟨_, rfl⟩ | ⟨r, _, rfl⟩ | ⟨_, rfl⟩ | ⟨hact, rfl⟩ := step_cases h
  · obtain hh | ⟨rfl | rfl, hh⟩ | ⟨rfl, hh⟩ := exec_digest hx
    · exact .inl hh
    · exact .inr (.inl ⟨.inl hact, hh⟩)
    · exact .inr (.inl ⟨.inr (.inl hact), hh⟩)
    · exact .inr (.inr ⟨hact, hh⟩)
  · exact .inl rfl
  · exact .inl rfl
  · exact .inl rfl
  · exact .inr (.inl ⟨.inr (.inr hact), rfl⟩)

/-! ### PUSH_STRING (R22, R97, R244) -/

theorem decode_pushByte (b : Byte) :
    decode (.cmd (0x02000000 ||| b.setWidth 32)) = .ok (.pushByte b) := by
  revert b
  decide +kernel

theorem accessAction_pushByteAccess (c : Config) (b : Byte) :
    accessAction c (pushByteAccess c b) = .instr (.pushByte b) := by
  have hreg : accessedRegister c (pushByteAccess c b) = .ok .cmd := by
    simp [pushByteAccess, hostWriteAt, accessedRegister, regAtOffset]
  rw [accessAction, hreg]
  simp only [pushByteAccess, hostWriteAt, decode_pushByte]

theorem message_appendByte (b : Byte) (hn : (s.n + 1).toNat = s.n.toNat + 1) :
    (appendByte b s).message = s.message ++ [b] := by
  simp only [State.message, appendByte_n, hn, List.range_succ, List.map_append, List.map_singleton,
    messageByte_appendByte, if_pos]
  congr 1
  exact List.map_congr_left fun a ha =>
    (messageByte_appendByte b s a).trans (if_neg (List.mem_range.mp ha).ne)

/-- The step of an accepted PUSH_BYTE (R244). -/
theorem step_pushByte {b : Byte} {rest : List Turn} (hb : s.busy = false) (hn : s.n < s.cfg.maxSize)
    (hin : s.inputs = .host (pushByteAccess s.cfg b) :: rest) :
    step s = .next (setPhase .idle (appendByte b (takeTurn s))) := by
  have hact : nextAction s = .instr (.pushByte b) := by
    simp only [nextAction, hin, accessAction_pushByteAccess]
  rw [step_of_instr hact]
  exact execPushByte_next.mpr (.inr (.inr ⟨hb, hn, rfl⟩))

/-- Settles O58, by induction on the bytes. -/
theorem pushedBytesInOrder : Obligations.PushedBytesInOrder := by
  intro bytes
  induction bytes with
  | nil => exact fun s hb _ _ => ⟨s, rfl, (List.append_nil _).symm, rfl, hb, rfl, rfl, rfl⟩
  | cons b bytes ih =>
    intro s hb hfits hin
    simp only [List.length_cons] at hfits
    have hn : (s.n + 1).toNat = s.n.toNat + 1 := by have := s.cfg.maxSize.isLt; bv_omega
    have hstep := step_pushByte hb (by bv_omega) hin
    obtain ⟨u, hrun, hmsg, hlen, hbusy, hlarge, hcmd, hh⟩ :=
      ih (setPhase .idle (appendByte b (takeTurn s))) rfl (by simp; omega)
        (by simp [hin, hostOpAccesses])
    refine ⟨u, ?_, ?_, ?_, hbusy, hlarge, hcmd, hh⟩
    · simp only [List.length_cons, runSteps, hstep, hrun]
    · rw [hmsg, List.append_cons]
      exact congrArg (· ++ bytes) (message_appendByte (s := takeTurn s) b hn)
    · simp only [hlen, setPhase_n, appendByte_n, takeTurn_n, hn, List.length_cons]
      omega

/-! ### Hidden state is never observable (R37, R40, R74) -/

theorem SameToHost.busy (h : SameToHost s u) : u.busy = s.busy := congrArg phaseBusy h.phase

theorem SameToHost.status (h : SameToHost s u) : u.status = s.status := by
  simp only [State.status, State.isDone, h.busy, h.phase, h.errTooLarge, h.errCmd]

/-- Every register the Host reads is a field on which the two states agree. -/
theorem SameToHost.readValue (h : SameToHost s u) (r : Reg) : readValue r u = readValue r s := by
  cases r with
  | cmd => rfl
  | status => exact h.status
  | len => exact h.n
  | blkcnt => exact h.blkcnt
  | digest k => simp only [Machine.readValue, h.busy, h.drawCount, h.h]
  | capacity => exact congrArg Config.maxSize h.cfg
  | config => exact congrArg configWord h.cfg
  | reserved k => rfl

theorem SameToHost.readDraws (h : SameToHost s u) (r : Reg) : readDraws r u = readDraws r s := by
  cases r <;> simp [Machine.readDraws, h.busy]

/-- Settles O50. -/
theorem sameToHostReadsAlike : Obligations.SameToHostReadsAlike :=
  fun _ _ h r => h.readValue r

theorem SameToHost.nextAction (h : SameToHost s u) : nextAction u = nextAction s := by
  simp only [Machine.nextAction, coreAction, h.inputs, h.cfg, h.phase]

theorem SameToHost.takeTurn (h : SameToHost s u) : SameToHost (takeTurn s) (takeTurn u) :=
  { h with inputs := congrArg List.tail h.inputs }

theorem SameToHost.with_errCmd (h : SameToHost s u) :
    SameToHost { s with errCmd := true } { u with errCmd := true } :=
  { h with errCmd := rfl }

theorem SameToHost.hostRead (h : SameToHost s u) (r : Reg) :
    SameToHost (hostRead r s) (hostRead r u) :=
  { h with
    readData := congrArg some (h.readValue r)
    drawCount := by simp only [hostRead_drawCount, h.readDraws, h.drawCount] }

/-- Leaving BUSY keeps the relation: no hidden register is alive in IDLE or DONE. -/
theorem SameToHost.to_not_busy (h : SameToHost s u) {p : Phase} (hp : phaseBusy p = false) :
    SameToHost { s with phase := p } { u with phase := p } := by
  have hexpand : p ≠ .expand := by rintro rfl; cases hp
  have hround : p ≠ .round := by rintro rfl; cases hp
  exact { h with
    phase := rfl
    i := by simp [State.busy, hp]
    ws := by simp [State.busy, hp]
    j := (absurd · hexpand)
    wExpand := (absurd · hexpand)
    t := (absurd · hround)
    wRound := (absurd · hround) }

/-- Going to LOAD for a block index keeps the relation: no other hidden register is alive there. -/
theorem SameToHost.to_load (h : SameToHost s u) (i : BitVec 32) :
    SameToHost { s with i := i, phase := .load } { u with i := i, phase := .load } :=
  { h with
    phase := rfl, i := fun _ => rfl, ws := fun _ hne => absurd rfl hne, j := nofun
    wExpand := nofun, t := nofun, wRound := nofun }

theorem SameToHost.platformReset (h : SameToHost s u) :
    SameToHost (platformReset s) (platformReset u) where
  cfg := h.cfg
  n := rfl
  h := rfl
  blkcnt := rfl
  phase := rfl
  errTooLarge := rfl
  errCmd := rfl
  readData := h.readData
  drawCount := h.drawCount
  inputs := h.inputs
  message := nofun
  i := nofun
  ws := nofun
  j := nofun
  wExpand := nofun
  t := nofun
  wRound := nofun

theorem SameToHost.execInit (h : SameToHost s u) (hx : execInit s = .next s') :
    ∃ u', execInit u = .next u' ∧ SameToHost s' u' := by
  rw [execInit_next.mp hx]
  exact ⟨_, rfl, { h.to_not_busy rfl with
    n := rfl, h := rfl, blkcnt := rfl, errTooLarge := rfl, errCmd := rfl, message := nofun }⟩

/-- A byte appended to both messages leaves them alike (R244). -/
theorem SameToHost.messageByte_appendByte (h : SameToHost s u) (b : Byte) {a : Nat}
    (ha : a < s.n.toNat + 1) : (appendByte b u).messageByte a = (appendByte b s).messageByte a := by
  rw [Machine.messageByte_appendByte, Machine.messageByte_appendByte, h.n]
  split
  · rfl
  · exact h.message a (by omega)

theorem SameToHost.execPushByte {b : Byte} (h : SameToHost s u) (hx : execPushByte b s = .next s') :
    ∃ u', execPushByte b u = .next u' ∧ SameToHost s' u' := by
  simp only [execPushByte_next, h.busy]
  obtain ⟨hb, rfl⟩ | ⟨hb, hfull, rfl⟩ | ⟨hb, hlt, rfl⟩ := execPushByte_next.mp hx
  · exact ⟨_, .inl ⟨hb, rfl⟩, h.with_errCmd⟩
  · exact ⟨_, .inr (.inl ⟨hb, by rw [h.n, h.cfg, hfull], rfl⟩), { h.to_not_busy rfl with
      errTooLarge := rfl }⟩
  · have hn : (s.n + 1).toNat = s.n.toNat + 1 := by bv_omega
    exact ⟨_, .inr (.inr ⟨hb, by rwa [h.n, h.cfg], rfl⟩), { h.to_not_busy rfl with
      n := congrArg (· + 1) h.n
      message := fun a ha => h.messageByte_appendByte b (hn ▸ ha) }⟩

theorem SameToHost.execStart (h : SameToHost s u) (hx : execStart s = .next s') :
    ∃ u', execStart u = .next u' ∧ SameToHost s' u' := by
  obtain ⟨hr, rfl⟩ | ⟨hb, hlarge, rfl⟩ := execStart_next.mp hx
  · exact ⟨_, execStart_next.mpr (.inl ⟨by rwa [h.busy, h.errTooLarge], rfl⟩), h.with_errCmd⟩
  · exact ⟨_, execStart_next.mpr (.inr ⟨h.busy.trans hb, h.errTooLarge.trans hlarge, rfl⟩),
      { h.to_load 0 with h := rfl, blkcnt := by simp only [h.n] }⟩

theorem SameToHost.execLoad (h : SameToHost s u) (hp : s.phase = .load)
    (hx : execLoad s = .next s') : ∃ u', execLoad u = .next u' ∧ SameToHost s' u' := by
  obtain ⟨hn, hi, rfl⟩ := execLoad_next.mp hx
  have hui : u.i = s.i := h.i (busy_of_phase_eq hp)
  have hblock : ∀ k, blockWord u.cfg.lenMode u.n.toNat u.messageByte u.i.toNat k
      = blockWord s.cfg.lenMode s.n.toNat s.messageByte s.i.toNat k := by
    intro k
    rw [h.cfg, h.n, hui]
    exact blockWord_congr h.message
  refine ⟨_, execLoad_next.mpr ⟨by rwa [h.n, h.cfg], by rwa [h.n, hui], rfl⟩, { h with
    phase := rfl, i := fun _ => hui, ws := fun _ _ => congrArg seedWorking h.h, j := fun _ => rfl
    wExpand := fun _ k hk => ?_, t := nofun, wRound := nofun }⟩
  have hk : k < 16 := hk
  simp only [State.scheduleWord, wordAt_loadSchedule, if_pos hk, hblock]

theorem SameToHost.execExpand (h : SameToHost s u) (hp : s.phase = .expand)
    (hx : execExpand s = .next s') : ∃ u', execExpand u = .next u' ∧ SameToHost s' u' := by
  obtain ⟨h16, h79, rfl⟩ := execExpand_next.mp hx
  have hbusy : s.busy = true := busy_of_phase_eq hp
  have hj : u.j = s.j := h.j hp
  have hw := h.wExpand hp
  have hentry : nextEntry u = nextEntry s := by
    rw [nextEntry, hj, hw _ (by omega), hw _ (by omega), hw _ (by omega), hw _ (by omega), nextEntry]
  have hw' : ∀ k, k < s.j.toNat + 1 →
      wordAt (u.w.setIfInBounds s.j.toNat (nextEntry u)) k
        = wordAt (s.w.setIfInBounds s.j.toNat (nextEntry s)) k := by
    intro k hk
    rw [hentry, wordAt_set _ _ _ (by omega), wordAt_set _ _ _ (by omega)]
    split
    · rfl
    · exact hw k (by omega)
  refine ⟨_, execExpand_next.mpr ⟨by rwa [hj], by rwa [hj], rfl⟩, ?_⟩
  by_cases hlast : s.j = 79
  · have h80 : s.j.toNat + 1 = 80 := by simp [hlast]
    simp only [hj, if_pos hlast]
    exact { h with
      phase := rfl, i := fun _ => h.i hbusy, ws := fun _ _ => h.ws hbusy (by simp [hp]), j := nofun
      wExpand := nofun, t := fun _ => rfl, wRound := fun _ k _ hk => hw' k (by omega) }
  · have hnext : (s.j + 1).toNat = s.j.toNat + 1 := by bv_omega
    simp only [hj, if_neg hlast]
    exact { h with
      j := fun _ => rfl, wExpand := fun _ k hk => hw' k (hnext ▸ hk)
      t := by simp [hp], wRound := by simp [hp] }

theorem SameToHost.execRound (h : SameToHost s u) (hp : s.phase = .round)
    (hx : execRound s = .next s') : ∃ u', execRound u = .next u' ∧ SameToHost s' u' := by
  obtain ⟨h79, rfl⟩ := execRound_next.mp hx
  have hbusy : s.busy = true := busy_of_phase_eq hp
  have ht : u.t = s.t := h.t hp
  have hw := h.wRound hp
  have hws : roundStep s.t.toNat u.ws (u.scheduleWord s.t.toNat)
      = roundStep s.t.toNat s.ws (s.scheduleWord s.t.toNat) := by
    rw [h.ws hbusy (by simp [hp]), hw _ (Nat.le_refl _) (by omega)]
  refine ⟨_, execRound_next.mpr ⟨by rwa [ht], rfl⟩, ?_⟩
  by_cases hlast : s.t = 79
  · simp only [ht, if_pos hlast]
    exact { h with
      phase := rfl, i := fun _ => h.i hbusy, ws := fun _ _ => hws, j := nofun, wExpand := nofun
      t := nofun, wRound := nofun }
  · have hnext : (s.t + 1).toNat = s.t.toNat + 1 := by bv_omega
    simp only [ht, if_neg hlast]
    exact { h with
      ws := fun _ _ => hws, t := fun _ => rfl
      wRound := fun _ k hk => hw k (by simp only [hnext] at hk; omega) }

theorem SameToHost.execAccum (h : SameToHost s u) (hp : s.phase = .accum)
    (hx : execAccum s = .next s') : ∃ u', execAccum u = .next u' ∧ SameToHost s' u' := by
  have hbusy : s.busy = true := busy_of_phase_eq hp
  have hi : u.i = s.i := h.i hbusy
  have hh : accumulate u.h u.ws = accumulate s.h s.ws := by rw [h.h, h.ws hbusy (by simp [hp])]
  rw [execAccum_next.mp hx]
  refine ⟨_, execAccum_next.mpr rfl, ?_⟩
  simp only [hh, hi, h.blkcnt]
  split
  · exact { h.to_load (s.i + 1) with h := rfl, blkcnt := rfl }
  · exact { h.to_not_busy rfl with h := rfl, blkcnt := rfl, i := nofun }

/-- Settles O49, by the cases of a step: the two states take the same action, and what it reads of the
hidden registers is alive in its phase. -/
theorem hiddenStateNeverObservable : Obligations.HiddenStateNeverObservable := by
  intro s u s' h hstep
  have hact := h.nextAction
  unfold step
  rw [hact]
  obtain ⟨i, hi, hx⟩ | ⟨hi, rfl⟩ | ⟨r, hi, rfl⟩ | ⟨hi | hi, rfl⟩ | ⟨hi, rfl⟩ := step_cases hstep <;>
    simp only [hi]
  · have h := h.takeTurn
    cases i with
    | nop => exact ⟨_, rfl, execNop_next.mp hx ▸ h⟩
    | init => exact h.execInit hx
    | pushByte b => exact h.execPushByte hx
    | start => exact h.execStart hx
    | load => exact h.execLoad (phase_of_load (s := s) hi) hx
    | expand => exact h.execExpand (phase_of_expand (s := s) hi) hx
    | round => exact h.execRound (phase_of_round (s := s) hi) hx
    | accum => exact h.execAccum (phase_of_accum (s := s) hi) hx
  · simp only [raiseError_commandError]
    exact ⟨_, rfl, h.takeTurn.with_errCmd⟩
  · exact ⟨_, rfl, h.takeTurn.hostRead r⟩
  · exact ⟨_, rfl, h.takeTurn⟩
  · exact ⟨_, rfl, h.takeTurn⟩
  · exact ⟨_, rfl, h.takeTurn.platformReset⟩

end Sys2Proof.Machine
end

