-- ==== Sys2Proof/Proofs/Memory.lean ====
section
/-! The statements of 20_memory.md: which host accesses have a step (R64), that no access but a HostWrite to
CMD has an effect (R66), and the forms of a digest (R63). -/

namespace Sys2Proof.Machine

variable {s s' : State}

/-! ### Which accesses have a step (R64) -/

theorem regAtOffset_eq_some {off : Nat} {r : Reg} : regAtOffset off = some r ↔ off = regOffset r := by
  constructor
  · intro h
    unfold regAtOffset at h
    split at h <;> cases h <;> rfl
  · rintro rfl
    cases r with
    | digest k => revert k; decide
    | reserved k => revert k; decide
    | _ => rfl

/-- Every offset of R80 lies in the window and is a multiple of 4. -/
theorem regOffset_aligned (r : Reg) : regOffset r ≤ 0x3C ∧ regOffset r % 4 = 0 := by
  cases r with
  | digest k => simp only [regOffset]; omega
  | reserved k => simp only [regOffset]; omega
  | _ => decide

/-- An access names a register when it is 32 bits wide at that register's offset. -/
theorem accessedRegister_eq_ok {c : Config} {a : Access} {r : Reg} :
    accessedRegister c a = .ok r ↔ a.width = 32 ∧ a.addr = c.regBase + regOffset r := by
  have hr := (regOffset_aligned r).1
  unfold accessedRegister
  split
  · next hw => simp [hw]
  · next hw =>
    split
    · next hout => simp; omega
    · next hin =>
      have hoff : regAtOffset (a.addr - c.regBase) = some r ↔ a.addr = c.regBase + regOffset r := by
        rw [regAtOffset_eq_some]
        omega
      split
      · next r' hr' => simp [← hoff, hr', not_not.mp hw]
      · next hnone => simp [← hoff, hnone]

theorem access_wellFormed_iff {c : Config} {a : Access} : a.wellFormed c = true ↔
    a.width = 32 ∧ c.regBase ≤ a.addr ∧ a.addr - c.regBase ≤ 0x3C ∧ (a.addr - c.regBase) % 4 = 0 := by
  simp [Access.wellFormed, and_assoc]

/-- An access has no register exactly when R64 gives it no meaning. -/
theorem accessedRegister_error_iff {c : Config} {a : Access} :
    (∃ e, accessedRegister c a = .error e) ↔ a.wellFormed c = false := by
  rw [← Bool.not_eq_true]
  constructor
  · rintro ⟨e, he⟩ hwf
    obtain ⟨r, hr⟩ := accessedRegister_of_wellFormed hwf
    simp [he] at hr
  · intro hwf
    cases hreg : accessedRegister c a with
    | error e => exact ⟨e, rfl⟩
    | ok r =>
      obtain ⟨hw, haddr⟩ := accessedRegister_eq_ok.mp hreg
      obtain ⟨hle, halign⟩ := regOffset_aligned r
      exact absurd (access_wellFormed_iff.mpr ⟨hw, by omega, by omega, by omega⟩) hwf

theorem accessAction_eq_refuse {c : Config} {a : Access} {e : Refusal} :
    accessAction c a = .refuse e ↔ accessedRegister c a = .error e :=
  ⟨accessAction_refuse, fun h => by simp [accessAction, h]⟩

theorem nextAction_host {a : Access} {rest : List Turn} (h : s.inputs = .host a :: rest) :
    nextAction s = accessAction s.cfg a := by
  simp [nextAction, h]

/-- A step is refused only by its turn, never by an instruction. -/
theorem step_eq_refused {e : Refusal} : step s = .refused e ↔ nextAction s = .refuse e := by
  unfold step
  split <;> simp_all [exec_not_refused]

theorem step_refused_iff {a : Access} {rest : List Turn} (h : s.inputs = .host a :: rest) :
    (∃ e, step s = .refused e) ↔ a.wellFormed s.cfg = false := by
  simp only [step_eq_refused, nextAction_host h, accessAction_eq_refuse, accessedRegister_error_iff]

/-- Settles O9: the refused accesses are the ill-formed ones, and under the invariant a step that is not
refused answers a next state. -/
theorem accessesWithoutMeaningRefused : Obligations.AccessesWithoutMeaningRefused := by
  intro s a rest hin
  refine ⟨?_, fun hs hw hlo hhi halign => ?_⟩
  · rw [step_refused_iff hin, ← access_wellFormed_iff, Bool.not_eq_true]
  · have hwf : a.wellFormed s.cfg = true := access_wellFormed_iff.mpr ⟨hw, hlo, hhi, halign⟩
    obtain hnext | ⟨e, _, hrefused⟩ := hs.step_next_or_refused
    · exact hnext
    · simp [(step_refused_iff hin).mp ⟨e, hrefused⟩] at hwf

/-! ### What an access does (R66) -/

theorem accessedRegister_hostReadOf (c : Config) (r : Reg) :
    accessedRegister c (hostReadOf c r) = .ok r :=
  accessedRegister_eq_ok.mpr ⟨rfl, rfl⟩

/-- What a host access can do, unless it is a HostWrite to CMD. -/
theorem accessAction_cases (c : Config) (a : Access) :
    (∃ e, accessAction c a = .refuse e) ∨
    (∃ r, a = hostReadOf c r ∧ accessAction c a = .read r) ∨
    accessAction c a = .ignoredWrite ∨
    ∃ v, a = hostWriteAt c 0x00 v := by
  cases hreg : accessedRegister c a with
  | error e => exact .inl ⟨e, accessAction_eq_refuse.mpr hreg⟩
  | ok r =>
    obtain ⟨addr, width, dir⟩ := a
    obtain ⟨rfl, rfl⟩ := accessedRegister_eq_ok.mp hreg
    cases dir with
    | read => exact .inr (.inl ⟨r, rfl, by simp [accessAction, hreg]⟩)
    | write v =>
      by_cases hr : r = .cmd
      · subst hr
        exact .inr (.inr (.inr ⟨v, rfl⟩))
      · refine .inr (.inr (.inl ?_))
        cases r <;> simp_all [accessAction]

theorem step_of_read {r : Reg} (h : nextAction s = .read r) :
    step s = .next (hostRead r (takeTurn s)) := by
  simp [step, h]

theorem step_of_ignoredWrite (h : nextAction s = .ignoredWrite) : step s = .next (takeTurn s) := by
  simp [step, h]

@[simp] theorem readValue_takeTurn (r : Reg) : readValue r (takeTurn s) = readValue r s := by
  cases r <;> rfl

/-- A HostRead leaves every register's value as it is, but for those whose reads are draws (R66, R251). -/
theorem readValue_hostRead {r : Reg} (q : Reg) (h : readDraws r s = false) :
    readValue r (hostRead q s) = readValue r s := by
  cases r with
  | digest k =>
    have hb : s.busy = false := h
    rw [readValue_digest_of_not_busy hb]
    exact readValue_digest_of_not_busy (s := hostRead q s) hb k
  | _ => rfl

/-- Only DIGEST reads while BUSY are draws (R251). -/
theorem readDraws_eq_false {r : Reg}
    (h : s.busy = false ∨ ∀ k : Fin 5, hostReadOf s.cfg r ≠ hostReadAt s.cfg (0x10 + 4 * k.val)) :
    readDraws r s = false := by
  cases r with
  | digest k => exact h.resolve_right fun hne => hne k rfl
  | _ => rfl

/-- Settles O15: the access is a read or an ignored write, and does the same again when it is repeated. -/
theorem onlyCommandWritesHaveEffects : Obligations.OnlyCommandWritesHaveEffects := by
  intro s s' a rest hin hstep hcmd
  have hact := nextAction_host hin
  have hrest : (takeTurn s).inputs = rest := by simp [hin]
  obtain ⟨e, ha⟩ | ⟨r, rfl, ha⟩ | ha | ⟨v, rfl⟩ := accessAction_cases s.cfg a
  · simp [step_eq_refused.mpr (hact.trans ha)] at hstep
  · rw [step_of_read (hact.trans ha)] at hstep
    cases hstep
    refine ⟨by rw [← hrest]; rfl, fun s'' rest' hagain hdraw hstep' => ?_⟩
    have hact' := nextAction_host (s := hostRead r (takeTurn s)) (hrest.trans hagain)
    rw [step_of_read (hact'.trans ha)] at hstep'
    cases hstep'
    have hnodraw : readDraws r (takeTurn s) = false := readDraws_eq_false hdraw
    simp [readValue_hostRead r hnodraw]
  · rw [step_of_ignoredWrite (hact.trans ha)] at hstep
    cases hstep
    refine ⟨by rw [← hrest]; rfl, fun s'' rest' hagain _ hstep' => ?_⟩
    have hact' := nextAction_host (s := takeTurn s) (hrest.trans hagain)
    rw [step_of_ignoredWrite (hact'.trans ha)] at hstep'
    cases hstep'
    rfl
  · exact absurd rfl (hcmd v)

/-! ### The forms of a digest (R63, R91, R192, R193) -/

/-- Word k of the 160-bit value is H[k], H[0] most significant: the words below H[k] drop out, then H[k] is
the low end of what is left (R91). -/
theorem digestValue_word (h : DigestState) (k : Fin 5) :
    (digestValue h).extractLsb' (128 - 32 * k.val) 32 = h.word k := by
  unfold digestValue
  fin_cases k <;>
    simp only [DigestState.word, BitVec.extractLsb'_append_eq_of_le, BitVec.extractLsb'_append_eq_right,
      BitVec.extractLsb'_eq_self, Nat.reduceMul, Nat.reduceSub, Nat.reduceLeDiff]

/-- Byte 4k + m of the digest is byte m of H[k] (R63). -/
theorem digestBytes_getD (h : DigestState) (k : Fin 5) {m : Nat} (hm : m < 4) :
    (digestBytes h).getD (4 * k.val + m) 0 = (h.word k).extractLsb' (24 - 8 * m) 8 := by
  rw [← wordBytes_getD _ hm]
  interval_cases m <;> fin_cases k <;> rfl

/-- The digest's bytes are the 160-bit value's, most significant first. -/
theorem digestBytes_eq_digestValue_bytes (h : DigestState) {n : Nat} (hn : n < 20) :
    (digestBytes h).getD n 0 = (digestValue h).extractLsb' (152 - 8 * n) 8 := by
  have hk : n / 4 < 5 := by omega
  have hm : n % 4 < 4 := by omega
  have hbyte := digestBytes_getD h ⟨n / 4, hk⟩ hm
  rw [← digestValue_word, Nat.div_add_mod] at hbyte
  rw [hbyte]
  ext i hi
  have hin : 24 - 8 * (n % 4) + i < 32 := by omega
  have hbit : 128 - 32 * (n / 4) + (24 - 8 * (n % 4) + i) = 152 - 8 * n + i := by omega
  simp only [BitVec.getElem_extractLsb', BitVec.getLsbD_extractLsb', hin, hbit, decide_true, Bool.true_and]

theorem hexDigit_mem (v : BitVec 4) : hexDigit v ∈ "0123456789ABCDEF".toList := by
  revert v
  decide

theorem hexDigit_injective : Function.Injective hexDigit := by
  unfold Function.Injective
  decide

@[simp] theorem hex8_length (w : Word) : (hex8 w).length = 8 := by simp [hex8]

/-- A Word is determined by its eight nibbles. -/
theorem eq_of_nibbles_eq {v w : Word}
    (h : ∀ k < 8, v.extractLsb' (28 - 4 * k) 4 = w.extractLsb' (28 - 4 * k) 4) : v = w := by
  ext i hi
  have hbit := congrArg (·.getLsbD (i % 4)) (h (7 - i / 4) (by omega))
  have hidx : 28 - 4 * (7 - i / 4) + i % 4 = i := by omega
  simpa [BitVec.getLsbD_extractLsb', hidx, Nat.mod_lt, BitVec.getLsbD_eq_getElem hi] using hbit

theorem hex8_injective {v w : Word} (h : hex8 v = hex8 w) : v = w := by
  refine eq_of_nibbles_eq fun k hk => hexDigit_injective ?_
  exact List.map_inj_left.mp h k (List.mem_range.mpr hk)

/-- The last eight digits of an equality of renderings give the last Word. -/
theorem append_hex8_inj {a b : List Char} {v w : Word} (h : a ++ hex8 v = b ++ hex8 w) :
    a = b ∧ v = w :=
  (List.append_inj' h (by simp)).imp_right hex8_injective

theorem render_injective {g h : DigestState} (heq : render g = render h) : g = h := by
  obtain ⟨g0, g1, g2, g3, g4⟩ := g
  obtain ⟨h0, h1, h2, h3, h4⟩ := h
  obtain ⟨heq, rfl⟩ := append_hex8_inj heq
  obtain ⟨heq, rfl⟩ := append_hex8_inj heq
  obtain ⟨heq, rfl⟩ := append_hex8_inj heq
  obtain ⟨heq, rfl⟩ := append_hex8_inj heq
  obtain rfl := hex8_injective heq
  rfl

theorem render_mem {h : DigestState} {c : Char} (hc : c ∈ render h) :
    c ∈ "0123456789ABCDEF".toList := by
  have hdigit {w : Word} (hw : c ∈ hex8 w) : c ∈ "0123456789ABCDEF".toList := by
    obtain ⟨k, _, rfl⟩ := List.mem_map.mp hw
    exact hexDigit_mem _
  simp only [render, List.mem_append] at hc
  obtain (((hc | hc) | hc) | hc) | hc := hc <;> exact hdigit hc

/-- Settles O43: the bytes and the value agree word by word, and the digits of equal renderings agree word by
word, from the last to the first. -/
theorem renderFaithful : Obligations.RenderFaithful := by
  intro h
  refine ⟨?_, digestBytes_length h, fun k m => digestBytes_getD h k,
    fun n => digestBytes_eq_digestValue_bytes h, by simp [render], fun c => render_mem,
    fun g => render_injective⟩
  rintro s rfl hb
  simp only [readValue_digest_of_not_busy hb]
  rfl

end Sys2Proof.Machine
end

