-- ==== Sys2Proof/Proofs/Encoding.lean ====
section
/-! The statements of 30_encoding.md: the decoder against the encoder, the rows of R83 and the field rules of
R82 and R85, which instruction a step runs (R81, R98), the fields of STATUS (R86 to R88), and the reads of
DIGEST (R91). -/

namespace Sys2Proof.Machine

variable {s s' : State}

/-! ### The rows of R83 -/

theorem selectsRow_iff {v mask pattern : Word} :
    selectsRow v mask pattern = true ↔ v &&& mask = pattern := by
  simp [selectsRow]

/-- A row whose mask is all ones selects its match word only. -/
theorem selectsRow_fullMask {v pattern : Word} :
    selectsRow v 0xFFFFFFFF pattern = true ↔ v = pattern := by
  rw [selectsRow_iff, show (0xFFFFFFFF : Word) = BitVec.allOnes 32 from rfl, BitVec.and_allOnes]

/-- Two rows that ask for different values of the bits under both masks select no common word. -/
theorem not_selectsRow_both {v m p m' p' : Word} (h : p &&& m' ≠ p' &&& m) :
    ¬ (selectsRow v m p = true ∧ selectsRow v m' p' = true) := by
  simp only [selectsRow_iff]
  rintro ⟨rfl, rfl⟩
  exact h (by ac_rfl)

/-- A command word is the 24 bits that PUSH_BYTE's mask keeps, then DATA. -/
theorem upper_append_commandData (v : Word) : v.extractLsb' 8 24 ++ commandData v = v :=
  (BitVec.extractLsb'_append_extractLsb'_eq_extractLsb' rfl).trans BitVec.extractLsb'_eq_self

theorem commandData_append (u : BitVec 24) (b : Byte) : commandData (u ++ b) = b :=
  BitVec.extractLsb'_append_eq_right

/-- PUSH_BYTE's word is its opcode and a reserved field of 0, then the byte (R82, R96). -/
theorem pushByteWord_eq_append (b : Byte) :
    (0x02000000 ||| b.setWidth 32 : Word) = 0x020000#24 ++ b := by
  calc (0x02000000 ||| b.setWidth 32 : Word)
    _ = (0x020000#24 ++ 0#8) ||| (0#24 ++ b) := by
      rw [BitVec.setWidth_eq_append (by decide)]
      rfl
    _ = 0x020000#24 ++ b := by rw [BitVec.or_append, BitVec.or_zero, BitVec.zero_or]

/-- PUSH_BYTE's row selects the words that encode it with their own low byte (R83, R84). -/
theorem selectsRow_pushByte {v : Word} :
    selectsRow v 0xFFFFFF00 0x02000000 = true ↔ encode (.pushByte (commandData v)) = .cmd v := by
  rw [selectsRow_iff, encode, Encoded.cmd.injEq, pushByteWord_eq_append]
  calc v &&& 0xFFFFFF00 = 0x02000000
    _ ↔ (v.extractLsb' 8 24 ++ commandData v) &&& (BitVec.allOnes 24 ++ 0#8) = 0x020000#24 ++ 0#8 := by
      rw [upper_append_commandData]
      rfl
    _ ↔ 0x020000#24 = v.extractLsb' 8 24 := by
      rw [BitVec.and_append, BitVec.and_allOnes, BitVec.and_zero, BitVec.append_left_inj, eq_comm]
    _ ↔ 0x020000#24 ++ commandData v = v := by
      rw [← BitVec.append_left_inj (commandData v), upper_append_commandData]

theorem encode_pushByte_eq_cmd {v : Word} {b : Byte} : encode (.pushByte b) = .cmd v ↔
    selectsRow v 0xFFFFFF00 0x02000000 = true ∧ b = commandData v := by
  rw [selectsRow_pushByte]
  constructor
  · intro h
    have hb : b = commandData v := by
      cases h
      rw [pushByteWord_eq_append, commandData_append]
    exact ⟨hb ▸ h, hb⟩
  · rintro ⟨h, rfl⟩
    exact h

/-! ### The decoder against the encoder and the rows (R83, R84, R98) -/

theorem decode_encode (i : Instr) : decode (encode i) = .ok i := by
  cases i with
  | pushByte b => exact decode_pushByte b
  | _ => rfl

/-- An encoding that decodes is the one of its instruction: each row selects only words of its command. -/
theorem encode_of_decode {e : Encoded} {i : Instr} (h : decode e = .ok i) : encode i = e := by
  cases e with
  | cmd v =>
    simp only [decode, decodeCommand] at h
    split_ifs at h with hnop hinit hpush hstart <;> cases h
    · exact congrArg Encoded.cmd (selectsRow_fullMask.mp hnop).symm
    · exact congrArg Encoded.cmd (selectsRow_fullMask.mp hinit).symm
    · exact selectsRow_pushByte.mp hpush
    · exact congrArg Encoded.cmd (selectsRow_fullMask.mp hstart).symm
  | phase code =>
    simp only [decode, decodePhase] at h
    split_ifs at h <;> cases h <;> subst code <;> rfl

/-- Settles O1: `decode` inverts `encode`, and reads nothing but what `encode` writes. -/
theorem decodeEncodeAgree : Obligations.DecodeEncodeAgree :=
  fun _ i => ⟨encode_of_decode, fun h => h ▸ decode_encode i⟩

theorem decodeCommand_eq_ok {v : Word} {i : Instr} :
    decodeCommand v = .ok i ↔ encode i = .cmd v :=
  decodeEncodeAgree (.cmd v) i

/-- The decoder rejects a word when no row selects it (R85). -/
theorem decodeCommand_error_iff_rows {v : Word} : (∃ err, decodeCommand v = .error err) ↔
    selectsRow v 0xFFFFFFFF 0x00000000 = false ∧ selectsRow v 0xFFFFFFFF 0x01000000 = false ∧
    selectsRow v 0xFFFFFF00 0x02000000 = false ∧ selectsRow v 0xFFFFFFFF 0x03000000 = false := by
  unfold decodeCommand
  split_ifs <;> simp_all

/-- A command without an operand has one word, its row's match word. -/
theorem decodeCommand_eq_ok_iff_fullMask {v w : Word} {i : Instr} (hi : encode i = .cmd w) :
    decodeCommand v = .ok i ↔ selectsRow v 0xFFFFFFFF w = true := by
  rw [decodeCommand_eq_ok, hi, selectsRow_fullMask, Encoded.cmd.injEq, eq_comm]

/-- Settles O3: the decoder's answers row by row, and the rows' match words pair by pair. -/
theorem commandRowsDisjoint : Obligations.CommandRowsDisjoint := by
  refine ⟨fun _ _ _ => selectsRow_iff, fun v => ⟨decodeCommand_eq_ok_iff_fullMask rfl,
    decodeCommand_eq_ok_iff_fullMask rfl, fun b => decodeCommand_eq_ok.trans encode_pushByte_eq_cmd,
    decodeCommand_eq_ok_iff_fullMask rfl, decodeCommand_error_iff_rows, ?_⟩⟩
  refine List.Pairwise.imp (fun h => not_selectsRow_both h) ?_
  decide

/-- Settles O5, by evaluation of the eleven encodings. -/
theorem sampleWordsDecode : Obligations.SampleWordsDecode := by
  unfold Obligations.SampleWordsDecode
  decide

/-! ### The decoder against the field rules (R82, R85, R98) -/

theorem encode_wellFormed (i : Instr) : (encode i).wellFormed = true := by
  cases i with
  | pushByte b => exact (Laws.EncodeWellFormed.pushByte b).2
  | _ => rfl

/-- R82's fields, put together again, are the word. -/
theorem commandFields_append (v : Word) : ((CommandFields.ofWord v).opc ++ (CommandFields.ofWord v).rsv)
    ++ (CommandFields.ofWord v).data = v := by
  have hupper : (CommandFields.ofWord v).opc ++ (CommandFields.ofWord v).rsv = v.extractLsb' 8 24 :=
    BitVec.extractLsb'_append_extractLsb'_eq_extractLsb' rfl
  rw [hupper]
  exact upper_append_commandData v

theorem commandFields_wellFormed_iff {f : CommandFields} :
    f.wellFormed = true ↔ f.opc.toNat ≤ 3 ∧ f.rsv = 0 ∧ (f.opc = 2 ∨ f.data = 0) := by
  simp [CommandFields.wellFormed, and_assoc]

/-- Fields that meet R85's rules make the word of a command, by the opcode. -/
theorem decodeCommand_of_wellFormed_fields {f : CommandFields} (h : f.wellFormed = true) :
    ∃ i, decodeCommand ((f.opc ++ f.rsv) ++ f.data) = .ok i := by
  obtain ⟨opc, rsv, data⟩ := f
  obtain ⟨hopc, rfl, hdata⟩ := commandFields_wellFormed_iff.mp h
  have hcases : opc = 0 ∨ opc = 1 ∨ opc = 2 ∨ opc = 3 := by bv_omega
  simp only [decodeCommand_eq_ok]
  obtain rfl | rfl | rfl | rfl := hcases
  · obtain rfl : data = 0 := by simpa using hdata
    exact ⟨.nop, rfl⟩
  · obtain rfl : data = 0 := by simpa using hdata
    exact ⟨.init, rfl⟩
  · exact ⟨.pushByte data, congrArg Encoded.cmd (pushByteWord_eq_append data)⟩
  · obtain rfl : data = 0 := by simpa using hdata
    exact ⟨.start, rfl⟩

theorem decodePhase_of_wellFormed {code : BitVec 3} (h : phaseCodeWellFormed code = true) :
    ∃ i, decodePhase code = .ok i := by
  simp only [phaseCodeWellFormed, Bool.and_eq_true, decide_eq_true_eq] at h
  have hcases : code = 1 ∨ code = 2 ∨ code = 3 ∨ code = 4 := by bv_omega
  obtain rfl | rfl | rfl | rfl := hcases <;> exact ⟨_, rfl⟩

/-- Settles O4: the fields determine the word, and an encoding that decodes is one that `encode` writes. -/
theorem wellFormedExactlyDecodable : Obligations.WellFormedExactlyDecodable := by
  intro e
  constructor
  · intro h
    cases e with
    | cmd v => exact commandFields_append v ▸ decodeCommand_of_wellFormed_fields h
    | phase code => exact decodePhase_of_wellFormed h
  · rintro ⟨i, hi⟩
    exact encode_of_decode hi ▸ encode_wellFormed i

theorem decodeCommand_error_iff_fields {v : Word} :
    (∃ err, decodeCommand v = .error err) ↔ ¬ (CommandFields.ofWord v).wellFormed = true := by
  have hok : (CommandFields.ofWord v).wellFormed = true ↔ ∃ i, decodeCommand v = .ok i :=
    wellFormedExactlyDecodable (.cmd v)
  rw [hok]
  cases decodeCommand v <;> simp

/-- Bits 23:0 are RSV and DATA (R82). -/
theorem low24_eq_zero_iff {v : Word} :
    v.extractLsb' 0 24 = 0 ↔ v.extractLsb' 8 16 = 0 ∧ v.extractLsb' 0 8 = 0 := by
  simp only [← BitVec.toNat_inj, BitVec.extractLsb'_toNat, Nat.shiftRight_eq_div_pow,
    BitVec.ofNat_eq_ofNat, BitVec.toNat_ofNat]
  omega

/-- R85's three cases are the failures of the field rules. -/
theorem commandFields_illegal_iff {v : Word} : ¬ (CommandFields.ofWord v).wellFormed = true ↔
    4 ≤ (v.extractLsb' 24 8).toNat ∨
    ((v.extractLsb' 24 8 = 0 ∨ v.extractLsb' 24 8 = 1 ∨ v.extractLsb' 24 8 = 3) ∧
      v.extractLsb' 0 24 ≠ 0) ∨
    (v.extractLsb' 24 8 = 2 ∧ v.extractLsb' 8 16 ≠ 0) := by
  rw [commandFields_wellFormed_iff, ne_eq, low24_eq_zero_iff]
  simp only [CommandFields.ofWord]
  bv_omega

/-! ### What a turn runs (R81, R98, R210, R240) -/

theorem takeTurn_eq {turn : Turn} {rest : List Turn} (h : s.inputs = turn :: rest) :
    takeTurn s = { s with inputs := rest } := by
  simp [takeTurn, h]

theorem accessedRegister_cmd (c : Config) (v : Word) :
    accessedRegister c (hostWriteAt c 0x00 v) = .ok .cmd :=
  accessedRegister_eq_ok.mpr ⟨rfl, rfl⟩

theorem accessAction_of_decode_ok {c : Config} {v : Word} {i : Instr} (h : decode (.cmd v) = .ok i) :
    accessAction c (hostWriteAt c 0x00 v) = .instr i := by
  rw [accessAction, accessedRegister_cmd]
  simp only [hostWriteAt, h]

theorem accessAction_of_decode_error {c : Config} {v : Word} {err : DecodeError}
    (h : decode (.cmd v) = .error err) :
    accessAction c (hostWriteAt c 0x00 v) = .illegalCommand := by
  rw [accessAction, accessedRegister_cmd]
  simp only [hostWriteAt, h]

theorem accessAction_hostReadOf (c : Config) (r : Reg) :
    accessAction c (hostReadOf c r) = .read r := by
  rw [accessAction, accessedRegister_hostReadOf]
  rfl

theorem step_of_illegalCommand (h : nextAction s = .illegalCommand) :
    step s = .next (raiseError .commandError (takeTurn s)) := by
  simp [step, h]

theorem step_of_waits (h : nextAction s = .waits) : step s = .next (takeTurn s) := by
  simp [step, h]

/-- The turn is the Core's when it is listed as such or none is listed (log 3). -/
theorem nextAction_core (h : s.inputs = [] ∨ ∃ rest, s.inputs = .core :: rest) :
    nextAction s = coreAction s := by
  obtain h | ⟨rest, h⟩ := h <;> simp [nextAction, h]

/-- Settles O2: R85's cases are the failures of the field rules, and the turn of such a word raises
CommandError. -/
theorem illegalCommandWords : Obligations.IllegalCommandWords := by
  intro v
  refine ⟨decodeCommand_error_iff_fields.trans commandFields_illegal_iff, fun i hi => ?_,
    fun s rest err herr hin => ?_⟩
  · have hcmd := decodeCommand_isCommand hi
    cases i <;> simp_all [isCommand]
  · have hact := (nextAction_host hin).trans (accessAction_of_decode_error herr)
    rw [step_of_illegalCommand hact, takeTurn_eq hin, raiseError_commandError]

/-- Settles O6. -/
theorem stepRunsWrittenCommand : Obligations.StepRunsWrittenCommand := by
  intro s v i rest hin hdec
  have hact := (nextAction_host hin).trans (accessAction_of_decode_ok hdec)
  rw [step_of_instr hact, takeTurn_eq hin]

/-- Settles O7. -/
theorem stepRunsCoreStep : Obligations.StepRunsCoreStep := by
  intro s i hin hdec
  have hcore : coreAction s = .instr i := by simp only [coreAction, hdec]
  exact step_of_instr ((nextAction_core hin).trans hcore)

theorem busy_iff_coreAction_instr : s.busy = true ↔ ∃ i, coreAction s = .instr i := by
  obtain ⟨hb, hact⟩ | ⟨hp, hact⟩ | ⟨hp, hact⟩ | ⟨hp, hact⟩ | ⟨hp, hact⟩ := coreAction_cases s
  · simp [hb, hact]
  all_goals simp [busy_of_phase_eq hp, phaseBusy, hact]

theorem coreAction_of_not_busy (hb : s.busy = false) : coreAction s = .waits := by
  obtain ⟨_, hact⟩ | ⟨hp, _⟩ | ⟨hp, _⟩ | ⟨hp, _⟩ | ⟨hp, _⟩ := coreAction_cases s
  · exact hact
  all_goals simp [busy_of_phase_eq hp, phaseBusy] at hb

/-- In IDLE and DONE a turn of the Core leaves the phase as it is (R210). -/
theorem phase_of_core_turn (hb : s.busy = false) (hin : s.inputs = [] ∨ ∃ rest, s.inputs = .core :: rest)
    (h : step s = .next s') : s'.phase = s.phase := by
  rw [step_of_waits ((nextAction_core hin).trans (coreAction_of_not_busy hb))] at h
  cases h
  rfl

/-- Settles O8, by what the next turn is. -/
theorem coreStepExactlyWhileBusy : Obligations.CoreStepExactlyWhileBusy := by
  intro s
  refine ⟨busy_iff_coreAction_instr, coreAction_load, coreAction_expand, coreAction_round,
    coreAction_accum, fun s' hb hstep hmoved => ?_⟩
  cases hin : s.inputs with
  | nil => exact absurd (phase_of_core_turn hb (.inl hin) hstep) hmoved
  | cons turn rest =>
    refine ⟨turn, rest, rfl, ?_⟩
    cases turn with
    | host a => exact .inl ⟨a, rfl⟩
    | core => exact absurd (phase_of_core_turn hb (.inr ⟨rest, hin⟩) hstep) hmoved
    | reset => exact .inr rfl

/-! ### STATUS (R86 to R88) -/

/-- The flags BUSY, DONE and ERR_TOO_LARGE in STATUS (R86). -/
theorem status_flags (s : State) : s.status.getLsbD 0 = s.busy ∧ s.status.getLsbD 1 = s.isDone ∧
    s.status.getLsbD 2 = s.errTooLarge := by
  simp only [State.status, BitVec.getLsbD_setWidth, BitVec.getLsbD_append, BitVec.getLsbD_ofBool]
  simp

/-- The PHASE field of STATUS (R86): the four flags below it drop out. -/
theorem status_phaseCode (s : State) : s.status.extractLsb' 4 3 = phaseCode s.phase := by
  rw [State.status, BitVec.extractLsb'_setWidth_of_le (by decide)]
  simp only [BitVec.extractLsb'_append_eq_of_le, Nat.reduceLeDiff, Nat.reduceSub,
    BitVec.extractLsb'_eq_self]

theorem status_lt (s : State) : s.status.toNat < 128 := by
  rw [State.status, BitVec.toNat_setWidth]
  exact (Nat.mod_le _ _).trans_lt (BitVec.isLt _)

theorem phaseCode_le (p : Phase) : (phaseCode p).toNat ≤ 5 := by
  cases p <;> decide

/-- BUSY and DONE are functions of the phase that exclude each other (R35). -/
theorem not_busy_of_isDone (h : s.isDone = true) : s.busy = false := by
  have hp : s.phase = .done := by simpa [State.isDone] using h
  exact busy_of_phase_eq hp

/-- Settles O48, field by field; ERR_TOO_LARGE implies IDLE by R41 item 5. -/
theorem statusLegal : Obligations.StatusLegal := by
  intro s hs
  obtain ⟨hbusy, hdone, hlarge⟩ := status_flags s
  rw [hbusy, hdone, hlarge, status_phaseCode]
  refine ⟨fun ⟨hb, hd⟩ => ?_, fun hb => ?_, phaseCode_le _, status_lt s⟩
  · simp [not_busy_of_isDone hd] at hb
  · exact hs.errTooLarge_of_phase_ne_idle (phase_ne_idle_of_busy hb)

/-- Settles O13. -/
theorem phaseCodes : Obligations.PhaseCodes := by
  refine ⟨fun s hlarge hcmd => ?_, fun s => ?_⟩
  · simp only [State.status, State.isDone, State.busy, hlarge, hcmd]
    cases s.phase <;> decide
  · rw [status_phaseCode]
    cases s.phase <;> decide

/-! ### The reads of DIGEST (R91, R250, R251) -/

theorem digestState_word (h : DigestState) (k : Fin 5) :
    h.word k = [h.h0, h.h1, h.h2, h.h3, h.h4].getD k.val 0 := by
  fin_cases k <;> rfl

theorem hostRead_digest_of_not_busy (hb : s.busy = false) (k : Fin 5) :
    hostRead (.digest k) s = { s with readData := some (s.h.word k) } := by
  simp only [hostRead, readValue, readDraws, hb, Bool.false_eq_true, if_false]

/-- While BUSY the read is a draw (R251). -/
theorem hostRead_digest_of_busy (hb : s.busy = true) (k : Fin 5) :
    hostRead (.digest k) s = { s with
      readData := some (Config.digestDraw s.drawCount)
      drawCount := s.drawCount + 1 } := by
  simp only [hostRead, readValue, readDraws, hb, if_true]

/-- Settles O14, BUSY and not. -/
theorem digestReads : Obligations.DigestReads := by
  intro s k rest hin
  have hact : nextAction s = .read (.digest k) :=
    (nextAction_host hin).trans (accessAction_hostReadOf s.cfg (.digest k))
  rw [step_of_read hact, takeTurn_eq hin]
  constructor
  · intro hb
    rw [hostRead_digest_of_not_busy (s := { s with inputs := rest }) hb, digestState_word]
  · intro hb
    rw [hostRead_digest_of_busy (s := { s with inputs := rest }) hb]

end Sys2Proof.Machine
end

