-- ==== Sys2Proof/Proofs/Padder.lean ====
section
/-! The statements of 40_padder.md: Pack and Unpack (R110, R111), the block count and the length field (R113,
R118), where the parts of the padded stream lie (R114 to R121), and which operands stop an instruction (the
model's choice about R119, R212 and R213). -/

namespace Sys2Proof.Machine

variable {s : State}

/-! ### Which operands stop an instruction (logs 12 and 13) -/

/-- An instruction faults exactly when it answers no next state, since none is refused. -/
theorem exec_fault_iff {i : Instr} : (∃ f, exec i s = .fault f) ↔ ¬ ∃ s', exec i s = .next s' := by
  cases h : exec i s with
  | next _ => simp
  | fault _ => simp
  | refused r => exact absurd h (exec_not_refused i s r)

theorem exec_load_fault_iff : (∃ f, exec .load s = .fault f) ↔
    s.cfg.maxSize < s.n ∨ blockCount s.n.toNat ≤ s.i.toNat := by
  rw [exec_fault_iff]
  simp only [exec, execLoad_next, exists_and_left, exists_eq, and_true, not_and_or,
    BitVec.not_le, Nat.not_lt]

theorem exec_expand_fault_iff : (∃ f, exec .expand s = .fault f) ↔ s.j.toNat < 16 ∨ 79 < s.j.toNat := by
  rw [exec_fault_iff]
  simp only [exec, execExpand_next, exists_and_left, exists_eq, and_true, not_and_or,
    Nat.not_le]

theorem exec_round_fault_iff : (∃ f, exec .round s = .fault f) ↔ 79 < s.t.toNat := by
  rw [exec_fault_iff]
  simp only [exec, execRound_next, exists_and_left, exists_eq, and_true, Nat.not_le]

theorem exec_pushByte_fault_iff {b : Byte} : (∃ f, exec (.pushByte b) s = .fault f) ↔
    s.busy = false ∧ s.cfg.maxSize < s.n := by
  have hroom : s.n = s.cfg.maxSize ∨ s.n < s.cfg.maxSize ↔ s.n ≤ s.cfg.maxSize := by
    rw [BitVec.le_def, Nat.le_iff_lt_or_eq, BitVec.toNat_inj, or_comm, BitVec.lt_def]
  rw [exec_fault_iff]
  simp only [exec, execPushByte_next, exists_or, exists_and_left, exists_eq, and_true]
  cases s.busy with
  | true => simp
  | false => simp [hroom]

/-- Only the three core steps with an index and PUSH_BYTE can fault. -/
theorem instr_of_exec_fault {i : Instr} {f : Fault} (h : exec i s = .fault f) :
    i = .load ∨ i = .expand ∨ i = .round ∨ ∃ b, i = .pushByte b := by
  have hstop := exec_fault_iff.mp ⟨f, h⟩
  cases i with
  | nop => exact absurd ⟨_, execNop_next.mpr rfl⟩ hstop
  | init => exact absurd ⟨_, execInit_next.mpr rfl⟩ hstop
  | start => exact absurd (execStart_exists_next s) hstop
  | accum => exact absurd ⟨_, execAccum_next.mpr rfl⟩ hstop
  | load => exact .inl rfl
  | expand => exact .inr (.inl rfl)
  | round => exact .inr (.inr (.inl rfl))
  | pushByte b => exact .inr (.inr (.inr ⟨b, rfl⟩))

/-- Settles O29, from what each instruction's next state needs. -/
theorem whereInstructionsStop : Obligations.WhereInstructionsStop := fun s =>
  ⟨exec_load_fault_iff, exec_expand_fault_iff, exec_round_fault_iff, fun _ => exec_pushByte_fault_iff,
    fun _ _ => instr_of_exec_fault, fun i => exec_not_refused i s⟩

/-! ### Pack and Unpack (R110, R111) -/

/-- The shifted bytes lie in disjoint bits, so Pack is concatenation (R110). -/
theorem pack_eq_append (b0 b1 b2 b3 : Byte) : pack b0 b1 b2 b3 = b0 ++ b1 ++ b2 ++ b3 := by
  unfold pack
  apply BitVec.eq_of_getLsbD_eq
  intro k hk
  simp only [BitVec.getLsbD_or, BitVec.getLsbD_shiftLeft, BitVec.getLsbD_setWidth, BitVec.getLsbD_append]
  grind

theorem unpack_pack (b0 b1 b2 b3 : Byte) : unpack (pack b0 b1 b2 b3) = (b0, b1, b2, b3) := by
  rw [pack_eq_append]
  simp only [unpack, BitVec.extractLsb'_append_eq_of_le, BitVec.extractLsb'_append_eq_right,
      BitVec.extractLsb'_eq_self, Nat.reduceSub, Nat.reduceLeDiff]

theorem pack_unpack (w : Word) :
    pack (unpack w).1 (unpack w).2.1 (unpack w).2.2.1 (unpack w).2.2.2 = w := by
  have h16 : w.extractLsb' 24 8 ++ w.extractLsb' 16 8 = w.extractLsb' 16 16 :=
    BitVec.extractLsb'_append_extractLsb'_eq_extractLsb' rfl
  have h24 : w.extractLsb' 16 16 ++ w.extractLsb' 8 8 = w.extractLsb' 8 24 :=
    BitVec.extractLsb'_append_extractLsb'_eq_extractLsb' rfl
  calc pack (unpack w).1 (unpack w).2.1 (unpack w).2.2.1 (unpack w).2.2.2
    _ = w.extractLsb' 24 8 ++ w.extractLsb' 16 8 ++ w.extractLsb' 8 8 ++ w.extractLsb' 0 8 :=
      pack_eq_append _ _ _ _
    _ = w.extractLsb' 8 24 ++ w.extractLsb' 0 8 := by rw [h16, h24]
    _ = w := upper_append_commandData w

/-- Settles O36, both inverses from Pack as concatenation. -/
theorem packUnpackInverse : Obligations.PackUnpackInverse :=
  ⟨pack_unpack, fun b0 b1 b2 b3 => ⟨unpack_pack b0 b1 b2 b3, pack_eq_append b0 b1 b2 b3⟩⟩

/-! ### The block count and the length field (R113, R118) -/

/-- The padded length is the first multiple of 64 that holds n + 9 bytes (R114). -/
theorem paddedLength_bounds (n : Nat) : n + 9 ≤ paddedLength n ∧ paddedLength n < n + 9 + 64 := by
  simp only [paddedLength, blockCount]
  omega

/-- Settles O33: the bounds of the padded length, eight bits to a byte. -/
theorem blockCountIsLeast : Obligations.BlockCountIsLeast := by
  intro n
  obtain ⟨hle, hlt⟩ := paddedLength_bounds n
  simp only [paddedLength] at hle hlt ⊢
  omega

/-- A message length is below 2^32, so that its bit length fits in the field in both modes (R118). -/
theorem lengthField_toNat (mode : LenMode) {n : Nat} (hn : n < 2 ^ 32) :
    (lengthField mode n).toNat = Reference.lengthValue mode n := by
  rw [Reference.lengthField_eq, BitVec.toNat_ofNat, Nat.mod_eq_of_lt]
  cases mode <;> simp only [Reference.lengthValue] <;> omega

/-- Settles O34: below 2^32 the two values are the same number. -/
theorem lengthFieldModes : Obligations.LengthFieldModes := by
  intro n hn
  refine ⟨lengthField_toNat .full64 hn, lengthField_toNat .trunc32 hn, fun hfit => ?_⟩
  apply BitVec.eq_of_toNat_eq
  calc (lengthField .full64 n).toNat
    _ = 8 * n := lengthField_toNat .full64 hn
    _ = 8 * n % 2 ^ 32 := (Nat.mod_eq_of_lt hfit).symm
    _ = (lengthField .trunc32 n).toNat := (lengthField_toNat .trunc32 hn).symm

/-! ### The parts of the padded stream (R114 to R121) -/

/-- Settles O32. -/
theorem paddedStreamByBytes : Obligations.PaddedStreamByBytes := fun mode msg =>
  ⟨Reference.paddedStream_length mode msg, fun _ hk => Reference.paddedStream_getD mode msg hk⟩

theorem padByte_terminator (mode : LenMode) (n : Nat) (m : Nat → Byte) : padByte mode n m n = 0x80 := by
  simp [padByte]

theorem padByte_zeroFill (mode : LenMode) {n k : Nat} (m : Nat → Byte) (hlo : n < k)
    (hhi : k < paddedLength n - 8) : padByte mode n m k = 0 := by
  simp only [padByte, Nat.not_lt.mpr hlo.le, hlo.ne', hhi, if_true, if_false]

/-- The terminator leaves no room for the length field in its block (R121). -/
theorem blockCount_of_spill {n : Nat} (h : 56 ≤ n % 64) : blockCount n = n / 64 + 2 := by
  simp only [blockCount]
  omega

/-- The terminator leaves room for the length field in its block (R121). -/
theorem blockCount_of_fits {n : Nat} (h : n % 64 ≤ 55) : blockCount n = n / 64 + 1 := by
  simp only [blockCount]
  omega

/-- Settles O35: what is left of the block of the terminator decides the block count. -/
theorem spillIntoExtraBlock : Obligations.SpillIntoExtraBlock := by
  intro mode n m
  refine ⟨padByte_terminator mode n m, fun hspill => ?_, fun hfits => ?_⟩
  · have hcount := blockCount_of_spill hspill
    have hblock : n < 64 * (n / 64 + 1) := Nat.lt_mul_div_succ n (by decide)
    have hend : paddedLength n - 8 = 64 * (n / 64 + 1) + 56 := by
      rw [paddedLength, hcount]
      omega
    exact ⟨hcount, hblock, hend, fun k hlo hhi => padByte_zeroFill mode m (hblock.trans_le hlo) hhi⟩
  · have hcount := blockCount_of_fits hfits
    have hend : paddedLength n - 8 = 64 * (n / 64) + 56 := by
      rw [paddedLength, hcount]
      omega
    exact ⟨hcount, Nat.mul_div_le n 64, hend, by omega⟩

end Sys2Proof.Machine
end

