-- ==== Sys2Proof/Proofs/Scheduler.lean ====
section
/-! The statements of 41_scheduler.md: RotateLeft bit by bit (R140), the recurrence of the 80-word schedule
(R141, R142), and the 16-word circular buffer that computes the same words (R144). -/

namespace Sys2Proof.Machine

/-! ### RotateLeft (R140) -/

/-- For k in [1, 31] RotateLeft is the rotation of the library, which reduces its count mod 32. -/
theorem rotateLeft_eq {k : Nat} (hk : k < 32) (x : Word) : rotateLeft k x = x.rotateLeft k := by
  rw [BitVec.rotateLeft_def, Nat.mod_eq_of_lt hk, rotateLeft]

/-- Settles O37: bits below k come around from the top, the others move up by k. -/
theorem rotateLeftByBits : Obligations.RotateLeftByBits := by
  intro k x b _ hk hb
  rw [rotateLeft_eq (by omega), BitVec.getLsbD_rotateLeft, Nat.mod_eq_of_lt (by omega : k < 32)]
  by_cases hbk : b < k
  · have hidx : (b + (32 - k)) % 32 = 32 - k + b := by omega
    simp [hbk, hidx]
  · have hidx : (b + (32 - k)) % 32 = b - k := by omega
    simp [hbk, hb, hidx]

/-! ### The 80-word schedule (R141, R142) -/

/-- Settles O38. -/
theorem scheduleRecurrence : Obligations.ScheduleRecurrence := fun block hb =>
  ⟨by rw [Reference.schedule, Reference.extendSchedule_length, hb],
    fun _ hk => Reference.schedule_getD_block hb hk,
    fun _ hlo hhi => Reference.schedule_recurrence hb hlo (by omega)⟩

/-! ### The circular buffer (R144) -/

namespace Reference

/-- After k computed entries the circular buffer holds the window [k, k + 16) of the schedule, entry n at
index n mod 16. -/
theorem circularBuffer_window (b : Vector Word 16) : ∀ {k : Nat}, k ≤ 64 →
    ∀ {n : Nat}, k ≤ n → n < k + 16 →
      wordAt (circularBuffer b k) (n % 16) = (schedule b.toList).getD n 0
  | 0, _, n, _, hn => by
    have hn16 : n < 16 := by omega
    rw [circularBuffer, Nat.mod_eq_of_lt hn16, wordAt_lt _ hn16, schedule_getD_block b.length_toList hn16]
    simp [hn16]
  | k + 1, hk, n, hlo, hhi => by
    have ih {m : Nat} (hm : k ≤ m) (hm' : m < k + 16) := circularBuffer_window b (k := k) (by omega) hm hm'
    rw [circularBuffer, wordAt_set _ _ _ (Nat.mod_lt _ (by decide))]
    split
    · next hslot =>
      obtain rfl : n = 16 + k := by omega
      have hoverwritten : wordAt (circularBuffer b k) ((16 + k) % 16)
          = (schedule b.toList).getD (16 + k - 16) 0 := by
        rw [Nat.add_mod_left, Nat.add_sub_cancel_left, ih (by omega) (by omega)]
      rw [hoverwritten, ih (by omega) (by omega), ih (by omega) (by omega), ih (by omega) (by omega)]
      exact (schedule_recurrence b.length_toList (by omega) (by omega)).symm
    · next hslot => exact ih (by omega) (by omega)

end Reference

/-- Settles O39: entry t lies in the window that the buffer holds just before round t. -/
theorem circularScheduleEquivalent : Obligations.CircularScheduleEquivalent := fun block t ht =>
  Reference.circularBuffer_window block (by omega : t - 15 ≤ 64) (by omega) (by omega)

end Sys2Proof.Machine
end

