-- ==== Sys2Proof/Proofs/Compressor.lean ====
section
/-! The statements of 42_compressor.md: the round function bit by bit over the four ranges of t (R160 to R163),
the other forms of Ch and Maj (R161, R163), and the round constants (R164). -/

namespace Sys2Proof.Machine

/-! ### Ch, Parity and Maj at one bit (R161 to R163) -/

/-- Ch chooses by B's bit. -/
theorem ch_getLsbD (b c d : Word) {k : Nat} (hk : k < 32) :
    (ch b c d).getLsbD k = if b.getLsbD k then c.getLsbD k else d.getLsbD k := by
  have selection : ∀ x y z : Bool, (x && y || !x && z) = if x then y else z := by decide
  simp only [ch, BitVec.getLsbD_or, BitVec.getLsbD_and, BitVec.getLsbD_not, hk, decide_true, Bool.true_and,
    selection]

/-- Parity counts the bits mod 2. -/
theorem parity_getLsbD (b c d : Word) (k : Nat) :
    (parity b c d).getLsbD k
      = decide (((b.getLsbD k).toNat + (c.getLsbD k).toNat + (d.getLsbD k).toNat) % 2 = 1) := by
  have odd_count : ∀ x y z : Bool, (x ^^ y ^^ z) = decide ((x.toNat + y.toNat + z.toNat) % 2 = 1) := by decide
  simp only [parity, BitVec.getLsbD_xor, odd_count]

/-- Maj asks for two of the three bits. -/
theorem maj_getLsbD (b c d : Word) (k : Nat) :
    (maj b c d).getLsbD k
      = decide (2 ≤ (b.getLsbD k).toNat + (c.getLsbD k).toNat + (d.getLsbD k).toNat) := by
  have two_of_three : ∀ x y z : Bool,
      (x && y || x && z || y && z) = decide (2 ≤ x.toNat + y.toNat + z.toNat) := by decide
  simp only [maj, BitVec.getLsbD_or, BitVec.getLsbD_and, two_of_three]

/-! ### The ranges of t (R160, R164) -/

theorem roundFunction_of_le_19 {t : Nat} (ht : t ≤ 19) (b c d : Word) : roundFunction t b c d = ch b c d :=
  if_pos ht

theorem roundFunction_of_40_to_59 {t : Nat} (hlo : 40 ≤ t) (hhi : t ≤ 59) (b c d : Word) :
    roundFunction t b c d = maj b c d := by
  rw [roundFunction, if_neg (by omega), if_neg (by omega), if_pos hhi]

theorem roundFunction_of_20_to_39_or_ge_60 {t : Nat} (ht : (20 ≤ t ∧ t ≤ 39) ∨ 60 ≤ t) (b c d : Word) :
    roundFunction t b c d = parity b c d := by
  obtain ⟨hlo, hhi⟩ | hlo := ht
  · rw [roundFunction, if_neg (by omega), if_pos hhi]
  · rw [roundFunction, if_neg (by omega), if_neg (by omega), if_neg (by omega)]

/-- Settles O40: the function of the range of t, at bit k. -/
theorem roundFunctionByBits : Obligations.RoundFunctionByBits := by
  intro t b c d k _ hk
  refine ⟨fun ht => ?_, fun hlo hhi => ?_, fun ht => ?_⟩
  · rw [roundFunction_of_le_19 ht, ch_getLsbD b c d hk]
  · rw [roundFunction_of_40_to_59 hlo hhi, maj_getLsbD]
  · rw [roundFunction_of_20_to_39_or_ge_60 ht, parity_getLsbD]

/-- Settles O42, range by range. -/
theorem roundConstants : Obligations.RoundConstants := by
  intro t
  refine ⟨fun ht => if_pos ht, fun hlo hhi => ?_, fun hlo hhi => ?_, fun hlo _ => ?_⟩
  · rw [roundConstant, if_neg (by omega), if_pos hhi]
  · rw [roundConstant, if_neg (by omega), if_neg (by omega), if_pos hhi]
  · rw [roundConstant, if_neg (by omega), if_neg (by omega), if_neg (by omega)]

/-! ### The other forms of Ch and Maj (R161, R163) -/

/-- B selects the one term of Ch and its complement the other, so that no bit is in both. -/
theorem ch_eq_xor (b c d : Word) : ch b c d = ((b &&& c) ^^^ (~~~b &&& d)) := by
  have at_most_one : ∀ x y z : Bool, (x && y || !x && z) = ((x && y) ^^ (!x && z)) := by decide
  ext k hk
  simp only [ch, BitVec.getElem_or, BitVec.getElem_xor, BitVec.getElem_and, BitVec.getElem_not, at_most_one]

/-- The two terms of Ch share no bit, so that their addition carries nowhere. -/
theorem ch_eq_add (b c d : Word) : ch b c d = (b &&& c) + (~~~b &&& d) := by
  have hdisjoint : (b &&& c) &&& (~~~b &&& d) = 0#32 := by
    ext k hk
    cases hb : b[k] <;> simp [hb]
  exact (BitVec.add_eq_or_of_and_eq_zero _ _ hdisjoint).symm

/-- At each bit an odd number of the three pairwise products holds exactly when one of them does. -/
theorem maj_eq_xor (b c d : Word) : maj b c d = ((b &&& c) ^^^ (b &&& d) ^^^ (c &&& d)) := by
  have one_or_three : ∀ x y z : Bool,
      (x && y || x && z || y && z) = ((x && y) ^^ (x && z) ^^ (y && z)) := by decide
  ext k hk
  simp only [maj, BitVec.getElem_or, BitVec.getElem_xor, BitVec.getElem_and, one_or_three]

/-- Settles O41. -/
theorem chMajOtherForms : Obligations.ChMajOtherForms := fun b c d =>
  ⟨ch_eq_xor b c d, ch_eq_add b c d, maj_eq_xor b c d⟩

end Sys2Proof.Machine
end

