-- ==== Sys2Proof/Proofs/Sequencer.lean ====
section
/-! The statements of 44_sequencer.md: what each core step does and leaves unchanged (R211 to R214), how many
steps a computation takes (R215), and what its first DONE holds (R217). -/

namespace Sys2Proof.Machine

variable {s s' s0 u : State}

/-! ### The core steps (R211 to R214) -/

/-- The padder's words, read from MSG, are the words of the block (R120). -/
theorem blockWord_eq_blockWords (hi : s.i.toNat < blockCount s.n.toNat) {k : Nat} (hk : k < 16) :
    blockWord s.cfg.lenMode s.n.toNat s.messageByte s.i.toNat k
      = (Reference.blockWords s.cfg.lenMode s.message s.i.toNat).getD k 0 := by
  have hlen : (Reference.blockWords s.cfg.lenMode s.message s.i.toNat).length = 16 :=
    Reference.blockWords_length _ _ (by rwa [message_length])
  exact (blockWord_eq_blockSchedule hi hk).trans (Reference.schedule_getD_block hlen hk)

/-- Settles O25: entries below 16 of the new W are the padder's words, the others those of the old W. -/
theorem loadResult : Obligations.LoadResult := by
  intro s hn hi
  refine ⟨_, execLoad_next.mpr ⟨hn, hi, rfl⟩, fun k hk => ?_, fun k hk => ?_, rfl⟩
  · exact (wordAt_loadSchedule _ _ k).trans ((if_pos hk).trans (blockWord_eq_blockWords hi hk))
  · exact (wordAt_loadSchedule _ _ k).trans (if_neg (by omega))

/-- Settles O26: one entry of W is set, and the move to ROUND depends on j alone. -/
theorem expandResult : Obligations.ExpandResult := by
  intro s h16 h79
  have hentry (k : Nat) : wordAt (s.w.setIfInBounds s.j.toNat (nextEntry s)) k
      = if k = s.j.toNat then nextEntry s else s.scheduleWord k := wordAt_set _ _ _ (by omega)
  refine ⟨_, execExpand_next.mpr ⟨h16, h79, rfl⟩, (hentry _).trans (if_pos rfl),
    fun k hk => (hentry k).trans (if_neg hk), ?_, fun hj => ?_, fun hj => ?_⟩
  · dsimp only
    bv_omega
  · have hne : s.j ≠ 79 := by bv_omega
    simp only [if_neg hne]
  · have heq : s.j = 79 := by bv_omega
    simp only [if_pos heq]

/-- Settles O27: the new working state is that of one round, and the move to ACCUM depends on t alone. -/
theorem roundResult : Obligations.RoundResult := by
  intro s h79
  refine ⟨_, execRound_next.mpr ⟨h79, rfl⟩, rfl, rfl, rfl, rfl, rfl, ?_, fun ht => ?_, fun ht => ?_⟩
  · dsimp only
    bv_omega
  · have hne : s.t ≠ 79 := by bv_omega
    simp only [if_neg hne]
  · have heq : s.t = 79 := by bv_omega
    simp only [if_pos heq]

/-- Settles O28: the phase depends on whether the new i is below BLKCNT. -/
theorem accumResult : Obligations.AccumResult := by
  intro s
  refine ⟨_, execAccum_next.mpr rfl, rfl, rfl, rfl, rfl, rfl, fun hmore => ?_, fun hlast => ?_⟩
  · simp only [if_pos hmore]
  · simp only [if_neg (BitVec.not_lt.mpr hlast)]

/-! ### What the core steps leave unchanged -/

/-- A core step can change H, S, W, i, j, t and the phase only. -/
theorem exec_coreStep_eq {i : Instr} (hi : isCommand i = false) (hx : exec i s = .next u) :
    ∃ h ws w k j t p,
      u = { s with h := h, ws := ws, w := w, i := k, j := j, t := t, phase := p } := by
  cases i with
  | load => obtain ⟨_, _, rfl⟩ := execLoad_next.mp hx; exact ⟨_, _, _, _, _, _, _, rfl⟩
  | expand => obtain ⟨_, _, rfl⟩ := execExpand_next.mp hx; exact ⟨_, _, _, _, _, _, _, rfl⟩
  | round => obtain ⟨_, rfl⟩ := execRound_next.mp hx; exact ⟨_, _, _, _, _, _, _, rfl⟩
  | accum => obtain rfl := execAccum_next.mp hx; exact ⟨_, _, _, _, _, _, _, rfl⟩
  | _ => cases hi

/-- Which core step changes which of H, i, S, W, j and t. -/
theorem exec_coreStep_writes {i : Instr} (hi : isCommand i = false) (hx : exec i s = .next u) :
    (i ≠ .accum → u.h = s.h ∧ u.i = s.i) ∧ (i ≠ .load → i ≠ .round → u.ws = s.ws) ∧
    (i ≠ .load → i ≠ .expand → u.w = s.w ∧ u.j = s.j) ∧ (i ≠ .expand → i ≠ .round → u.t = s.t) := by
  cases i with
  | load => obtain ⟨_, _, rfl⟩ := execLoad_next.mp hx; simp
  | expand => obtain ⟨_, _, rfl⟩ := execExpand_next.mp hx; simp
  | round => obtain ⟨_, rfl⟩ := execRound_next.mp hx; simp
  | accum => obtain rfl := execAccum_next.mp hx; simp
  | _ => cases hi

/-- Settles O31: the fields no core step changes, then those that only some of them change. -/
theorem coreStepFrame : Obligations.CoreStepFrame := by
  intro i s u hi hx
  have hwrites := exec_coreStep_writes hi hx
  obtain ⟨_, _, _, _, _, _, _, rfl⟩ := exec_coreStep_eq hi hx
  exact ⟨fun _ => rfl, rfl, rfl, rfl, rfl, rfl, rfl, rfl, rfl, rfl, rfl, hwrites⟩

/-! ### Runs that stay in one computation (R217) -/

theorem runSteps_succ_of_step (h : step s = .next s') (k : Nat) :
    runSteps (k + 1) s = runSteps k s' := by
  simp [runSteps, h]

theorem exists_step_of_runSteps_succ {k : Nat} (h : runSteps (k + 1) s = .next u) :
    ∃ s', step s = .next s' ∧ runSteps k s' = .next u := by
  simp only [runSteps] at h
  split at h
  · next s' hstep => exact ⟨s', hstep, h⟩
  · cases h
  · cases h

/-- What holds at the start and is kept by the steps that do not end the computation holds of every state
that only such steps reach. -/
theorem runSteps_induction {P : State → Prop}
    (hkeeps : ∀ s s', P s → s.busy = true → step s = .next s' → s'.phase ≠ .idle → P s') :
    ∀ {k : Nat} {s u : State}, P s → (∀ m v, m < k → runSteps m s = .next v → v.busy = true) →
      runSteps k s = .next u → u.phase ≠ .idle → P u
  | 0, s, u, hs, _, hrun, _ => by
    cases hrun
    exact hs
  | k + 1, s, u, hs, hbusy, hrun, hu => by
    obtain ⟨s', hstep, hrun'⟩ := exists_step_of_runSteps_succ hrun
    have hbusy' : ∀ m v, m < k → runSteps m s' = .next v → v.busy = true := fun m v hm hv =>
      hbusy (m + 1) v (by omega) ((runSteps_succ_of_step hstep m).trans hv)
    have hs' : s'.phase ≠ .idle := by
      cases k with
      | zero =>
        cases hrun'
        exact hu
      | succ k => exact phase_ne_idle_of_busy (hbusy' 0 s' (by omega) rfl)
    exact runSteps_induction hkeeps (hkeeps s s' hs (hbusy 0 s (by omega) rfl) hstep hs') hbusy' hrun' hu

/-- State `u` stands in a computation of the message, length and parameters of `s` (R36, R41, R217). -/
structure State.InComputationOf (s u : State) : Prop where
  inv : u.Inv
  computes : u.Computes
  message : u.message = s.message
  n : u.n = s.n
  cfg : u.cfg = s.cfg

/-- A step that does not end the computation stays in it (R36, R71). -/
theorem State.InComputationOf.step (h : s.InComputationOf u) (hb : u.busy = true)
    (hstep : step u = .next s') (hp : s'.phase ≠ .idle) : s.InComputationOf s' := by
  obtain ⟨hkept, hended⟩ := messageFixedWhileBusy u s' hb hstep
  obtain ⟨hmsg, hn, _, _⟩ := hkept (fun hi => hp (hended (.inl hi))) (fun hr => hp (hended (.inr hr)))
  exact {
    inv := stepKeepsInvariant u s' h.inv hstep
    computes := stepKeepsComputation u s' h.inv h.computes hstep
    message := hmsg.trans h.message
    n := hn.trans h.n
    cfg := (parametersNeverChange u s' hstep).trans h.cfg }

/-- What an accepted START answers (R245). -/
theorem exec_start_of_accepted (hb : s.busy = false) (hlarge : s.errTooLarge = false) :
    exec .start s = .next { s with
      blkcnt := BitVec.ofNat 32 (blockCount s.n.toNat), h := iv, i := 0, phase := .load } :=
  execStart_next.mpr (.inr ⟨hb, hlarge, rfl⟩)

/-- An accepted START begins a computation of the message it saw. -/
theorem inComputationOf_of_start (hs : s.Inv) (hb : s.busy = false) (hlarge : s.errTooLarge = false)
    (hstart : exec .start s = .next s0) : s.InComputationOf s0 := by
  have hinv : s0.Inv := execStart_inv hs hstart
  rw [exec_start_of_accepted hb hlarge] at hstart
  cases hstart
  exact ⟨hinv, .of_load rfl rfl, rfl, rfl, rfl⟩

/-- Settles O60: the run stays in the computation that START began, and DONE in a computation means that H is
the digest (R41 item 4). -/
theorem firstDoneHoldsDigest : Obligations.FirstDoneHoldsDigest := by
  intro s s0 u k hs hb hlarge hstart hbusy hrun hdone
  have hu : s.InComputationOf u :=
    runSteps_induction (fun _ _ h => h.step) (inComputationOf_of_start hs hb hlarge hstart) hbusy hrun
      (by simp [hdone])
  obtain ⟨hcnt, hdigest⟩ := hu.computes.finished hdone
  refine ⟨?_, ?_, hu.n, hu.message⟩
  · rw [hdigest, hu.cfg, hu.message]
  · rw [hcnt, toNat_ofNat_blockCount, hu.n]

/-! ### How many steps a computation takes (R215) -/

/-- How many core steps are left until DONE: one LOAD, 64 EXPAND, 80 ROUND and one ACCUM for each block after
this one, and those that are left of this block. -/
def State.stepsLeft (s : State) : Nat :=
  let blocksAfter := s.blkcnt.toNat - (s.i.toNat + 1)
  match s.phase with
  | .idle => 0
  | .load => 146 * blocksAfter + 146
  | .expand => 146 * blocksAfter + (80 - s.j.toNat) + 81
  | .round => 146 * blocksAfter + (80 - s.t.toNat) + 1
  | .accum => 146 * blocksAfter + 1
  | .done => 0

theorem stepsLeft_of_load (hp : s.phase = .load) :
    s.stepsLeft = 146 * (s.blkcnt.toNat - (s.i.toNat + 1)) + 146 := by
  simp [State.stepsLeft, hp]

theorem stepsLeft_of_expand (hp : s.phase = .expand) :
    s.stepsLeft = 146 * (s.blkcnt.toNat - (s.i.toNat + 1)) + (80 - s.j.toNat) + 81 := by
  simp [State.stepsLeft, hp]

theorem stepsLeft_of_round (hp : s.phase = .round) :
    s.stepsLeft = 146 * (s.blkcnt.toNat - (s.i.toNat + 1)) + (80 - s.t.toNat) + 1 := by
  simp [State.stepsLeft, hp]

theorem stepsLeft_of_accum (hp : s.phase = .accum) :
    s.stepsLeft = 146 * (s.blkcnt.toNat - (s.i.toNat + 1)) + 1 := by
  simp [State.stepsLeft, hp]

theorem stepsLeft_of_done (hp : s.phase = .done) : s.stepsLeft = 0 := by
  simp [State.stepsLeft, hp]

/-- Steps are left exactly while BUSY (R35). -/
theorem busy_iff_stepsLeft_pos : s.busy = true ↔ 0 < s.stepsLeft := by
  unfold State.busy State.stepsLeft
  cases s.phase <;> simp [phaseBusy]

theorem execLoad_stepsLeft (hp : s.phase = .load) (hx : execLoad s = .next s') :
    s'.stepsLeft + 1 = s.stepsLeft := by
  obtain ⟨_, _, rfl⟩ := execLoad_next.mp hx
  rw [stepsLeft_of_load hp, stepsLeft_of_expand rfl]
  rfl

theorem execExpand_stepsLeft (hp : s.phase = .expand) (hx : execExpand s = .next s') :
    s'.stepsLeft + 1 = s.stepsLeft := by
  obtain ⟨_, h79, hs'⟩ := execExpand_next.mp hx
  by_cases hj : s.j = 79
  · have hp' : s'.phase = .round := by simp only [hs', if_pos hj]
    rw [stepsLeft_of_expand hp, stepsLeft_of_round hp', hs']
    simp [hj]
  · have hp' : s'.phase = .expand := by simp only [hs', if_neg hj, hp]
    rw [stepsLeft_of_expand hp, stepsLeft_of_expand hp', hs']
    bv_omega

theorem execRound_stepsLeft (hp : s.phase = .round) (hx : execRound s = .next s') :
    s'.stepsLeft + 1 = s.stepsLeft := by
  obtain ⟨h79, hs'⟩ := execRound_next.mp hx
  by_cases ht : s.t = 79
  · have hp' : s'.phase = .accum := by simp only [hs', if_pos ht]
    rw [stepsLeft_of_round hp, stepsLeft_of_accum hp', hs']
    simp [ht]
  · have hp' : s'.phase = .round := by simp only [hs', if_neg ht, hp]
    rw [stepsLeft_of_round hp, stepsLeft_of_round hp', hs']
    bv_omega

theorem execAccum_stepsLeft (hi : s.i < s.blkcnt) (hp : s.phase = .accum)
    (hx : execAccum s = .next s') : s'.stepsLeft + 1 = s.stepsLeft := by
  have hs' := execAccum_next.mp hx
  by_cases hmore : s.i + 1 < s.blkcnt
  · have hp' : s'.phase = .load := by simp only [hs', if_pos hmore]
    rw [stepsLeft_of_accum hp, stepsLeft_of_load hp', hs']
    bv_omega
  · have hp' : s'.phase = .done := by simp only [hs', if_neg hmore]
    rw [stepsLeft_of_accum hp, stepsLeft_of_done hp']
    bv_omega

/-- The step that a BUSY phase selects leaves one step less. -/
theorem exec_stepsLeft (hi : s.i < s.blkcnt) {i : Instr} (hcore : coreAction s = .instr i)
    (hx : exec i s = .next s') : s'.stepsLeft + 1 = s.stepsLeft := by
  obtain ⟨_, h⟩ | ⟨hp, h⟩ | ⟨hp, h⟩ | ⟨hp, h⟩ | ⟨hp, h⟩ := coreAction_cases s <;>
    cases hcore.symm.trans h
  · exact execLoad_stepsLeft hp hx
  · exact execExpand_stepsLeft hp hx
  · exact execRound_stepsLeft hp hx
  · exact execAccum_stepsLeft hi hp hx

theorem coreAction_isCoreStep {i : Instr} (h : coreAction s = .instr i) : isCommand i = false := by
  obtain ⟨_, h'⟩ | ⟨_, h'⟩ | ⟨_, h'⟩ | ⟨_, h'⟩ | ⟨_, h'⟩ := coreAction_cases s <;>
    cases h.symm.trans h' <;> rfl

/-- A state of the invariant, in a computation or after it, from which the Host is silent (log 3). -/
structure State.RunsSilently (s : State) : Prop where
  inv : s.Inv
  notIdle : s.phase ≠ .idle
  silent : s.inputs = []

/-- While BUSY and with the Host silent, the next step is a core step, and leaves one step less. -/
theorem State.RunsSilently.step (h : s.RunsSilently) (hb : s.busy = true) :
    ∃ s', step s = .next s' ∧ s'.RunsSilently ∧ s'.stepsLeft + 1 = s.stepsLeft := by
  obtain ⟨i, hcore⟩ := busy_iff_coreAction_instr.mp hb
  have hact : nextAction s = .instr i := (nextAction_core (.inl h.silent)).trans hcore
  obtain ⟨s', hx⟩ := exec_exists_next h.inv hact
  have hstep : Machine.step s = .next s' := (step_of_instr hact).trans hx
  have hi : isCommand i = false := coreAction_isCoreStep hcore
  have hne : i ≠ .init := by
    rintro rfl
    cases hi
  obtain ⟨_, _, _, hp⟩ := (messageFixedWhileBusy s s' hb hstep).1 (by simp [hact, hne]) (by simp [hact])
  have hin : s'.inputs = [] := by
    obtain ⟨_, _, _, _, _, _, _, rfl⟩ := exec_coreStep_eq hi hx
    exact congrArg List.tail h.silent
  exact ⟨s', hstep, ⟨stepKeepsInvariant s s' h.inv hstep, hp, hin⟩,
    exec_stepsLeft (s := takeTurn s) (h.inv.busyBlocks hb).2 hcore hx⟩

/-- A silent run of no more steps than are left leaves that many steps less. -/
theorem State.RunsSilently.run : ∀ {k : Nat} {s : State}, s.RunsSilently → k ≤ s.stepsLeft →
    ∃ u, runSteps k s = .next u ∧ u.RunsSilently ∧ u.stepsLeft + k = s.stepsLeft
  | 0, s, h, _ => ⟨s, rfl, h, rfl⟩
  | k + 1, s, h, hk => by
    obtain ⟨s', hstep, h', hleft⟩ := h.step (busy_iff_stepsLeft_pos.mpr (by omega))
    obtain ⟨u, hrun, hu, hleft'⟩ := run (k := k) h' (by omega)
    exact ⟨u, (runSteps_succ_of_step hstep k).trans hrun, hu, by omega⟩

theorem State.RunsSilently.busy_of_run_lt {k : Nat} (h : s.RunsSilently) (hk : k < s.stepsLeft) :
    ∃ u, runSteps k s = .next u ∧ u.busy = true := by
  obtain ⟨u, hrun, _, hleft⟩ := h.run hk.le
  exact ⟨u, hrun, busy_iff_stepsLeft_pos.mpr (by omega)⟩

theorem phase_done_of_stepsLeft_eq_zero (hp : s.phase ≠ .idle) (h : s.stepsLeft = 0) :
    s.phase = .done := by
  unfold State.stepsLeft at h
  cases hphase : s.phase <;> simp_all

theorem State.RunsSilently.done_of_run (h : s.RunsSilently) :
    ∃ u, runSteps s.stepsLeft s = .next u ∧ u.phase = .done := by
  obtain ⟨u, hrun, hu, hleft⟩ := h.run (Nat.le_refl _)
  exact ⟨u, hrun, phase_done_of_stepsLeft_eq_zero hu.notIdle (by omega)⟩

/-- An accepted START leaves 146 steps for each block of the message. -/
theorem stepsLeft_of_start (hb : s.busy = false) (hlarge : s.errTooLarge = false)
    (hstart : exec .start s = .next s0) : s0.stepsLeft = 146 * blockCount s.n.toNat := by
  rw [exec_start_of_accepted hb hlarge] at hstart
  cases hstart
  have hpos := blockCount_pos s.n.toNat
  rw [stepsLeft_of_load rfl]
  change 146 * ((BitVec.ofNat 32 (blockCount s.n.toNat)).toNat - (0 + 1)) + 146 = _
  rw [toNat_ofNat_blockCount]
  omega

/-- With the Host silent, an accepted START begins a silent run. -/
theorem runsSilently_of_start (hs : s.Inv) (hb : s.busy = false) (hlarge : s.errTooLarge = false)
    (hin : s.inputs = []) (hstart : exec .start s = .next s0) : s0.RunsSilently := by
  have hinv : s0.Inv := execStart_inv hs hstart
  rw [exec_start_of_accepted hb hlarge] at hstart
  cases hstart
  exact ⟨hinv, nofun, hin⟩

/-- Settles O59: START leaves 146 steps for each block, a silent run uses them up, and its DONE is the first
one. -/
theorem computationTakes146StepsPerBlock : Obligations.ComputationTakes146StepsPerBlock := by
  intro s hs hb hlarge hin
  obtain ⟨s0, hstart⟩ := execStart_exists_next s
  have hs0 := runsSilently_of_start hs hb hlarge hin hstart
  rw [← stepsLeft_of_start hb hlarge hstart]
  obtain ⟨u, hrun, hdone⟩ := hs0.done_of_run
  have hbusy {k : Nat} (hk : k < s0.stepsLeft) := hs0.busy_of_run_lt hk
  have hbusy' : ∀ m v, m < s0.stepsLeft → runSteps m s0 = .next v → v.busy = true := by
    intro m v hm hv
    obtain ⟨v', hv', hb'⟩ := hbusy hm
    cases hv.symm.trans hv'
    exact hb'
  exact ⟨s0, hstart, fun k hk => hbusy hk, u, hrun, hdone,
    (firstDoneHoldsDigest s s0 u _ hs hb hlarge hstart hbusy' hrun hdone).1⟩

end Sys2Proof.Machine
end

