-- ==== Sys2Proof/Proofs/HostCommands.lean ====
section
/-! The statements of 45_host_commands.md: what each command does (R241 to R246) and what the commands leave
unchanged, which writes are ignored (R247), and the register reads (R248, R249). -/

namespace Sys2Proof.Machine

variable {s s' u : State}

/-! ### The commands (R241 to R245) -/

/-- Settles O19. -/
theorem nopChangesNothing : Obligations.NopChangesNothing := fun _ => execNop_next.mpr rfl

/-- In IDLE without error flags every field of STATUS is 0 (R86, R87). -/
theorem status_eq_zero_of_idle (hp : s.phase = .idle) (hlarge : s.errTooLarge = false)
    (hcmd : s.errCmd = false) : s.status = 0 := by
  obtain ⟨hidle, _⟩ := phaseCodes.1 s hlarge hcmd
  obtain ⟨_, _, hstatus⟩ := hidle hp
  exact hstatus

/-- Settles O20. -/
theorem initResult : Obligations.InitResult := fun _ =>
  ⟨_, execInit_next.mpr rfl, status_eq_zero_of_idle rfl rfl rfl, rfl⟩

/-- What PUSH_BYTE answers while BUSY (R243). -/
theorem exec_pushByte_of_busy (hb : s.busy = true) (b : Byte) :
    exec (.pushByte b) s = .next { s with errCmd := true } :=
  execPushByte_next.mpr (.inl ⟨hb, rfl⟩)

/-- What START answers while BUSY (R243) and while ERR_TOO_LARGE is set (R246). -/
theorem exec_start_of_rejected (h : s.busy = true ∨ s.errTooLarge = true) :
    exec .start s = .next { s with errCmd := true } :=
  execStart_next.mpr (.inl ⟨h, rfl⟩)

/-- Settles O21. -/
theorem busyRejection : Obligations.BusyRejection := fun _ hb =>
  ⟨exec_pushByte_of_busy hb, exec_start_of_rejected (.inl hb)⟩

/-- Settles O22: the accepted byte is the one write to MSG, and N below MAX_SIZE does not wrap. -/
theorem pushByteResult : Obligations.PushByteResult := by
  refine fun s b => ⟨fun hb => exec_pushByte_of_busy hb b,
    fun hb hn => execPushByte_next.mpr (.inr (.inl ⟨hb, hn, rfl⟩)), fun hb hn => ?_⟩
  have hlen : (s.n + 1).toNat = s.n.toNat + 1 := by
    have := s.cfg.maxSize.isLt
    bv_omega
  exact ⟨_, execPushByte_next.mpr (.inr (.inr ⟨hb, hn, rfl⟩)), hlen, Memory.read?_write_same _ _ _,
    fun _ ha => Memory.read?_write_other _ _ _ ha, message_appendByte b hlen, rfl⟩

/-- Settles O23: the block count fits BLKCNT. -/
theorem startResult : Obligations.StartResult := fun s =>
  ⟨exec_start_of_rejected, fun hb hlarge =>
    ⟨_, exec_start_of_accepted hb hlarge, toNat_ofNat_blockCount s.n, rfl⟩⟩

/-! ### No digest of a truncated message (R246) -/

/-- With ERR_TOO_LARGE set, which is in IDLE at N = MAX_SIZE (R41 item 5), no command but INIT clears it,
leaves IDLE or writes H or BLKCNT. -/
theorem exec_command_keeps_tooLarge {i : Instr} (hi : isCommand i = true) (hinit : i ≠ .init)
    (hlarge : s.errTooLarge = true) (hn : s.n = s.cfg.maxSize) (hp : s.phase = .idle)
    (hx : exec i s = .next s') :
    s'.errTooLarge = true ∧ s'.phase = .idle ∧ s'.h = s.h ∧ s'.blkcnt = s.blkcnt := by
  cases i with
  | nop => obtain rfl := execNop_next.mp hx; exact ⟨hlarge, hp, rfl, rfl⟩
  | init => exact absurd rfl hinit
  | pushByte b =>
    obtain ⟨_, rfl⟩ | ⟨_, _, rfl⟩ | ⟨_, hlt, _⟩ := execPushByte_next.mp hx
    · exact ⟨hlarge, hp, rfl, rfl⟩
    · exact ⟨rfl, rfl, rfl, rfl⟩
    · exact absurd hn (BitVec.ne_of_lt hlt)
  | start =>
    cases (exec_start_of_rejected (.inr hlarge)).symm.trans hx
    exact ⟨hlarge, hp, rfl, rfl⟩
  | _ => cases hi

/-- In IDLE an instruction that runs is a command, for the Core has no step there (R210). -/
theorem isCommand_of_idle {i : Instr} (hp : s.phase = .idle) (h : nextAction s = .instr i) :
    isCommand i = true := by
  obtain ⟨hi, _⟩ | ⟨hp', _⟩ | ⟨hp', _⟩ | ⟨hp', _⟩ | ⟨hp', _⟩ := nextAction_instr h
  · exact hi
  all_goals simp [hp] at hp'

/-- Settles O24, by the cases of a step. -/
theorem noDigestAfterTooLarge : Obligations.NoDigestAfterTooLarge := by
  refine fun s hlarge => ⟨exec_start_of_rejected (.inr hlarge), fun hs s' hstep => ?_⟩
  obtain ⟨hn, hp⟩ := hs.tooLargeIdle hlarge
  obtain ⟨i, hact, hx⟩ | ⟨_, rfl⟩ | ⟨r, _, rfl⟩ | ⟨_, rfl⟩ | ⟨hact, _⟩ := step_cases hstep
  · by_cases hinit : i = .init
    · exact .inl (hinit ▸ hact)
    · exact .inr (.inr (exec_command_keeps_tooLarge (s := takeTurn s) (isCommand_of_idle hp hact) hinit
        hlarge hn hp hx))
  · exact .inr (.inr ⟨by simp [hlarge], hp, rfl, rfl⟩)
  · exact .inr (.inr ⟨hlarge, hp, rfl, rfl⟩)
  · exact .inr (.inr ⟨hlarge, hp, rfl, rfl⟩)
  · exact .inr (.inl hact)

/-! ### What the commands leave unchanged -/

/-- A command can change MSG, N, H, BLKCNT, i, the phase and the error flags only. -/
theorem exec_command_eq {i : Instr} (hi : isCommand i = true) (hx : exec i s = .next u) :
    ∃ m n h c k p large cmd, u = { s with
      msg := m, n := n, h := h, blkcnt := c, i := k, phase := p, errTooLarge := large, errCmd := cmd } := by
  cases i with
  | nop => obtain rfl := execNop_next.mp hx; exact ⟨_, _, _, _, _, _, _, _, rfl⟩
  | init => obtain rfl := execInit_next.mp hx; exact ⟨_, _, _, _, _, _, _, _, rfl⟩
  | pushByte b =>
    obtain ⟨_, rfl⟩ | ⟨_, _, rfl⟩ | ⟨_, _, rfl⟩ := execPushByte_next.mp hx <;>
      exact ⟨_, _, _, _, _, _, _, _, rfl⟩
  | start =>
    obtain ⟨_, rfl⟩ | ⟨_, _, rfl⟩ := execStart_next.mp hx <;> exact ⟨_, _, _, _, _, _, _, _, rfl⟩
  | _ => cases hi

/-- The byte PUSH_BYTE stores at address N is the only byte of MSG that a command changes. -/
theorem exec_command_messageByte {i : Instr} (hi : isCommand i = true) (hx : exec i s = .next u) {a : Nat}
    (ha : (∃ b, i = .pushByte b) → a ≠ s.n.toNat) : u.messageByte a = s.messageByte a := by
  cases i with
  | nop => obtain rfl := execNop_next.mp hx; rfl
  | init => obtain rfl := execInit_next.mp hx; rfl
  | pushByte b =>
    obtain ⟨_, rfl⟩ | ⟨_, _, rfl⟩ | ⟨_, _, rfl⟩ := execPushByte_next.mp hx
    · rfl
    · rfl
    · exact (messageByte_appendByte b s a).trans (if_neg (ha ⟨b, rfl⟩))
  | start => obtain ⟨_, rfl⟩ | ⟨_, _, rfl⟩ := execStart_next.mp hx <;> rfl
  | _ => cases hi

/-- Which command changes which of N, H, BLKCNT and i. -/
theorem exec_command_writes {i : Instr} (hi : isCommand i = true) (hx : exec i s = .next u) :
    (i ≠ .init → (∀ b, i ≠ .pushByte b) → u.n = s.n) ∧
    (i ≠ .init → i ≠ .start → u.h = s.h ∧ u.blkcnt = s.blkcnt) ∧ (i ≠ .start → u.i = s.i) := by
  cases i with
  | nop => obtain rfl := execNop_next.mp hx; simp
  | init => obtain rfl := execInit_next.mp hx; simp
  | pushByte b => obtain ⟨_, rfl⟩ | ⟨_, _, rfl⟩ | ⟨_, _, rfl⟩ := execPushByte_next.mp hx <;> simp
  | start => obtain ⟨_, rfl⟩ | ⟨_, _, rfl⟩ := execStart_next.mp hx <;> simp
  | _ => cases hi

/-- Settles O30: the fields no command changes, the bytes of MSG, then the fields that only some commands
change. -/
theorem commandFrame : Obligations.CommandFrame := by
  intro i s u hi hx
  have hbytes := fun a => exec_command_messageByte hi hx (a := a)
  have hwrites := exec_command_writes hi hx
  obtain ⟨_, _, _, _, _, _, _, _, rfl⟩ := exec_command_eq hi hx
  exact ⟨rfl, rfl, rfl, rfl, rfl, rfl, rfl, rfl, rfl, hbytes, hwrites⟩

/-! ### Ignored writes (R247) -/

/-- A HostWrite to a register other than CMD is ignored (R94, R95). -/
theorem accessAction_hostWriteAt {r : Reg} (hr : r ≠ .cmd) (c : Config) (v : Word) :
    accessAction c (hostWriteAt c (regOffset r) v) = .ignoredWrite := by
  have hreg : accessedRegister c (hostWriteAt c (regOffset r) v) = .ok r :=
    accessedRegister_eq_ok.mpr ⟨rfl, rfl⟩
  rw [accessAction, hreg]
  cases r with
  | cmd => exact absurd rfl hr
  | _ => rfl

/-- Settles O10: an aligned offset of the window is a register's, and offset 0 is CMD's. -/
theorem otherWritesIgnored : Obligations.OtherWritesIgnored := by
  intro s off v rest hne hle halign hin
  obtain ⟨r, hr⟩ := regAtOffset_of_aligned off hle halign
  obtain rfl := regAtOffset_eq_some.mp hr
  have hcmd : r ≠ .cmd := fun h => hne (congrArg regOffset h)
  have hact := (nextAction_host hin).trans (accessAction_hostWriteAt hcmd s.cfg v)
  rw [step_of_ignoredWrite hact, takeTurn_eq hin]

/-! ### Register reads (R248, R249) -/

/-- The step of a HostRead that draws no unspecified Word: the Host gets the register's value, and nothing
else changes. -/
theorem step_of_exact_read {r : Reg} {rest : List Turn} (hin : s.inputs = .host (hostReadOf s.cfg r) :: rest)
    (hdraw : readDraws r s = false) :
    step s = .next { s with inputs := rest, readData := some (readValue r s) } := by
  have hact := (nextAction_host hin).trans (accessAction_hostReadOf s.cfg r)
  have hdraw' : readDraws r (takeTurn s) = false := by cases r <;> exact hdraw
  rw [step_of_read hact, hostRead, hdraw', readValue_takeTurn, takeTurn_eq hin]
  rfl

theorem exists_reserved_of_offset {off : Nat}
    (h : off = 0x2C ∨ off = 0x30 ∨ off = 0x34 ∨ off = 0x38 ∨ off = 0x3C) :
    ∃ k, off = regOffset (.reserved k) := by
  obtain rfl | rfl | rfl | rfl | rfl := h
  exacts [⟨0, rfl⟩, ⟨1, rfl⟩, ⟨2, rfl⟩, ⟨3, rfl⟩, ⟨4, rfl⟩]

/-- Settles O11, register by register. -/
theorem exactRegisterReads : Obligations.ExactRegisterReads := by
  intro s off rest hin
  refine ⟨?_, ?_, ?_, ?_, ?_⟩
  · rintro rfl
    exact step_of_exact_read (r := .len) hin rfl
  · rintro rfl
    exact step_of_exact_read (r := .blkcnt) hin rfl
  · rintro rfl
    exact step_of_exact_read (r := .capacity) hin rfl
  · rintro rfl
    rw [← configWord_eq]
    exact step_of_exact_read (r := .config) hin rfl
  · rintro (rfl | hoff)
    · exact step_of_exact_read (r := .cmd) hin rfl
    · obtain ⟨k, rfl⟩ := exists_reserved_of_offset hoff
      exact step_of_exact_read (r := .reserved k) hin rfl

/-- The fields of STATUS as a number (R86): each flag is one more bit below the phase code. -/
theorem status_toNat (s : State) : s.status.toNat = s.busy.toNat + 2 * s.isDone.toNat
    + 4 * s.errTooLarge.toNat + 8 * s.errCmd.toNat + 16 * (phaseCode s.phase).toNat := by
  have hflag {w : Nat} (x : BitVec w) (b : Bool) : (x ++ BitVec.ofBool b).toNat = x.toNat * 2 + b.toNat :=
    BitVec.toNat_concat x b
  have hfits : (phaseCode s.phase ++ BitVec.ofBool s.errCmd ++ BitVec.ofBool s.errTooLarge
      ++ BitVec.ofBool s.isDone ++ BitVec.ofBool s.busy).toNat < 2 ^ 32 :=
    (BitVec.isLt _).trans (by decide)
  rw [State.status, BitVec.toNat_setWidth, Nat.mod_eq_of_lt hfits]
  simp only [hflag]
  omega

/-- Settles O12. -/
theorem statusRead : Obligations.StatusRead := fun s _ hin =>
  ⟨s.status, step_of_exact_read (r := .status) hin rfl, status_toNat s⟩

end Sys2Proof.Machine
end

