-- ==== Sys2Proof/Proofs/Exceptions.lean ====
section
/-! The statements of 60_exceptions.md: what sets each error flag (R271, R272), what clears it (R277), and
the priority of the errors (R274). -/

namespace Sys2Proof.Machine

variable {s s' : State}

/-! ### The flags after an instruction -/

/-- No core step changes an error flag. -/
theorem exec_coreStep_flags {i : Instr} (hi : isCommand i = false) (hx : exec i s = .next s') :
    s'.errTooLarge = s.errTooLarge ∧ s'.errCmd = s.errCmd := by
  obtain ⟨_, _, _, _, _, _, _, rfl⟩ := exec_coreStep_eq hi hx
  exact ⟨rfl, rfl⟩

theorem exec_errTooLarge {i : Instr} (hx : exec i s = .next s') : s'.errTooLarge = true ↔
    i ≠ .init ∧ (s.errTooLarge = true ∨ ∃ b, i = .pushByte b ∧ s.busy = false ∧ s.n = s.cfg.maxSize) := by
  cases i with
  | nop => obtain rfl := execNop_next.mp hx; simp
  | init => obtain rfl := execInit_next.mp hx; simp
  | pushByte b =>
    obtain ⟨hb, rfl⟩ | ⟨hb, hn, rfl⟩ | ⟨_, hlt, rfl⟩ := execPushByte_next.mp hx
    · simp [hb]
    · simp [hb, hn]
    · simp [BitVec.ne_of_lt hlt]
  | start => obtain ⟨_, rfl⟩ | ⟨_, _, rfl⟩ := execStart_next.mp hx <;> simp
  | _ => simp [exec_coreStep_flags rfl hx]

theorem exec_errCmd {i : Instr} (hx : exec i s = .next s') : s'.errCmd = true ↔
    i ≠ .init ∧ (s.errCmd = true ∨ (∃ b, i = .pushByte b ∧ s.busy = true) ∨
      (i = .start ∧ (s.busy = true ∨ s.errTooLarge = true))) := by
  cases i with
  | nop => obtain rfl := execNop_next.mp hx; simp
  | init => obtain rfl := execInit_next.mp hx; simp
  | pushByte b =>
    obtain ⟨hb, rfl⟩ | ⟨hb, _, rfl⟩ | ⟨hb, _, rfl⟩ := execPushByte_next.mp hx <;> simp [hb]
  | start =>
    obtain ⟨hrej, rfl⟩ | ⟨hb, hlarge, rfl⟩ := execStart_next.mp hx
    · simp [hrej]
    · simp [hb, hlarge]
  | _ => simp [exec_coreStep_flags rfl hx]

/-! ### The flags after a step (R271, R272, R277) -/

@[simp] theorem takeTurn_busy (s : State) : (takeTurn s).busy = s.busy := rfl

/-- The next turn is an INIT or a platform reset, which clear both flags (R277). -/
def State.ClearsErrors (s : State) : Prop :=
  nextAction s = .instr .init ∨ nextAction s = .platformReset

/-- The next turn raises InputTooLarge (R271). -/
def State.RaisesInputTooLarge (s : State) : Prop :=
  ∃ b, nextAction s = .instr (.pushByte b) ∧ s.busy = false ∧ s.n = s.cfg.maxSize

/-- The next turn raises CommandError (R272). -/
def State.RaisesCommandError (s : State) : Prop :=
  nextAction s = .illegalCommand ∨ (∃ b, nextAction s = .instr (.pushByte b) ∧ s.busy = true) ∨
    (nextAction s = .instr .start ∧ (s.busy = true ∨ s.errTooLarge = true))

theorem State.RaisesInputTooLarge.not_clears (h : s.RaisesInputTooLarge) : ¬ s.ClearsErrors := by
  obtain ⟨b, hact, _⟩ := h
  simp [State.ClearsErrors, hact]

theorem State.RaisesCommandError.not_clears (h : s.RaisesCommandError) : ¬ s.ClearsErrors := by
  obtain hact | ⟨b, hact, _⟩ | ⟨hact, _⟩ := h <;> simp [State.ClearsErrors, hact]

/-- No turn raises both errors (R274). -/
theorem State.RaisesInputTooLarge.not_commandError (h : s.RaisesInputTooLarge) :
    ¬ s.RaisesCommandError := by
  obtain ⟨b, hact, hb, _⟩ := h
  simp [State.RaisesCommandError, hact, hb]

/-- ERR_TOO_LARGE after a step: set or raised before, and not cleared. -/
theorem step_errTooLarge (h : step s = .next s') : s'.errTooLarge = true ↔
    ¬ s.ClearsErrors ∧ (s.errTooLarge = true ∨ s.RaisesInputTooLarge) := by
  obtain ⟨i, hact, hx⟩ | ⟨hact, rfl⟩ | ⟨r, hact, rfl⟩ | ⟨hact | hact, rfl⟩ | ⟨hact, rfl⟩ := step_cases h <;>
    simp only [State.ClearsErrors, State.RaisesInputTooLarge, hact]
  · simpa using exec_errTooLarge hx
  all_goals simp

/-- ERR_CMD after a step: set or raised before, and not cleared. -/
theorem step_errCmd (h : step s = .next s') : s'.errCmd = true ↔
    ¬ s.ClearsErrors ∧ (s.errCmd = true ∨ s.RaisesCommandError) := by
  obtain ⟨i, hact, hx⟩ | ⟨hact, rfl⟩ | ⟨r, hact, rfl⟩ | ⟨hact | hact, rfl⟩ | ⟨hact, rfl⟩ := step_cases h <;>
    simp only [State.ClearsErrors, State.RaisesCommandError, hact]
  · simpa using exec_errCmd hx
  all_goals simp

/-- Settles O53: each flag after the step is read off its equivalence. -/
theorem errorFlagsSticky : Obligations.ErrorFlagsSticky := by
  intro s s' h
  have hlarge := step_errTooLarge h
  have hcmd := step_errCmd h
  refine ⟨fun hclear => ?_, fun hinit hreset => ?_, fun hraise => ?_, fun b hact hb hn => ?_⟩
  · exact ⟨Bool.eq_false_iff.mpr fun he => (hlarge.mp he).1 hclear,
      Bool.eq_false_iff.mpr fun he => (hcmd.mp he).1 hclear⟩
  · have hkeep : ¬ s.ClearsErrors := not_or.mpr ⟨hinit, hreset⟩
    exact ⟨fun he => hlarge.mpr ⟨hkeep, .inl he⟩, fun he => hcmd.mpr ⟨hkeep, .inl he⟩⟩
  · have hraises : s.RaisesCommandError := by
      obtain hact | ⟨hact | ⟨b, hact⟩, hb⟩ | ⟨hact, he⟩ := hraise
      · exact .inl hact
      · exact .inr (.inr ⟨hact, .inl hb⟩)
      · exact .inr (.inl ⟨b, hact, hb⟩)
      · exact .inr (.inr ⟨hact, .inr he⟩)
    exact hcmd.mpr ⟨hraises.not_clears, .inr hraises⟩
  · have hraises : s.RaisesInputTooLarge := ⟨b, hact, hb, hn⟩
    exact hlarge.mpr ⟨hraises.not_clears, .inr hraises⟩

/-- Settles O54: a flag that is set after the step and was not before has been raised. -/
theorem errorFlagCauses : Obligations.ErrorFlagCauses := by
  intro s s' h
  exact ⟨fun hclear hset => ((step_errTooLarge h).mp hset).2.resolve_left (by simp [hclear]),
    fun hclear hset => ((step_errCmd h).mp hset).2.resolve_left (by simp [hclear])⟩

/-! ### The priority of errors (R274) -/

/-- A step that clears no flag leaves one of the two as it was, for no turn raises both errors. -/
theorem step_keeps_an_errorFlag (hkeep : ¬ s.ClearsErrors) (h : step s = .next s') :
    s'.errTooLarge = s.errTooLarge ∨ s'.errCmd = s.errCmd := by
  by_cases hraises : s.RaisesInputTooLarge
  · exact .inr (Bool.eq_iff_iff.mpr (by simp [step_errCmd h, hkeep, hraises.not_commandError]))
  · exact .inl (Bool.eq_iff_iff.mpr (by simp [step_errTooLarge h, hkeep, hraises]))

/-- A HostWrite to CMD clears the flags only when its word is INIT. -/
theorem decode_init_of_clears {v : Word} {rest : List Turn}
    (hin : s.inputs = .host (hostWriteAt s.cfg 0x00 v) :: rest) (hclear : s.ClearsErrors) :
    decode (.cmd v) = .ok .init := by
  rw [State.ClearsErrors, nextAction_host hin] at hclear
  cases hdec : decode (.cmd v) with
  | ok i => simpa [accessAction_of_decode_ok hdec] using hclear
  | error err => simp [accessAction_of_decode_error hdec] at hclear

/-- Settles O55: each write runs the command of its word, or raises CommandError when it has none. -/
theorem errorPriority : Obligations.ErrorPriority := by
  intro s v rest hin
  have hrun {i : Instr} (hdec : decode (.cmd v) = .ok i) : step s = exec i { s with inputs := rest } :=
    stepRunsWrittenCommand s v i rest hin hdec
  refine ⟨?_, ?_, ?_, fun s' h => ?_⟩
  · rintro ⟨err, herr⟩
    exact (illegalCommandWords v).2.2 s rest err herr hin
  · rintro (⟨b, hdec⟩ | hdec) hb
    · exact (hrun hdec).trans (exec_pushByte_of_busy (s := { s with inputs := rest }) hb b)
    · exact (hrun hdec).trans (exec_start_of_rejected (s := { s with inputs := rest }) (.inl hb))
  · rintro ⟨b, hdec⟩ hb hn
    exact (hrun hdec).trans (execPushByte_next.mpr (.inr (.inl ⟨hb, hn, rfl⟩)))
  · by_cases hclear : s.ClearsErrors
    · exact .inr (.inr (decode_init_of_clears hin hclear))
    · exact (step_keeps_an_errorFlag hclear h).imp_right .inl

end Sys2Proof.Machine
end

