-- ==== Sys2Proof/Proofs/ResetAndHazards.lean ====
section
/-! The statements of 70_reset_and_hazards.md: what a platform reset leaves (R300, R302), that the Host cannot
tell it from INIT (R301), and how long DONE stays (R304). -/

namespace Sys2Proof.Machine

variable {s s' u : State}

/-! ### Reset and INIT (R300 to R302) -/

/-- What the Host reads of a state with the reset values of the visible elements (R80, R300). -/
theorem reads_of_reset_values (hp : s.phase = .idle) (hlarge : s.errTooLarge = false)
    (hcmd : s.errCmd = false) (hn : s.n = 0) (hblk : s.blkcnt = 0) (hh : s.h = iv) :
    s.status = 0 ∧ readValue .len s = 0 ∧ readValue .blkcnt s = 0 ∧ ∀ k, readValue (.digest k) s
      = [0x67452301, 0xEFCDAB89, 0x98BADCFE, 0x10325476, 0xC3D2E1F0].getD k.val 0 := by
  refine ⟨status_eq_zero_of_idle hp hlarge hcmd, hn, hblk, fun k => ?_⟩
  rw [readValue_digest_of_not_busy (busy_of_phase_eq hp), hh]
  exact iv_word k

/-- The condition under which a hidden register counts is one on which the two states agree. -/
theorem SameToHost.symm (h : SameToHost s u) : SameToHost u s where
  cfg := h.cfg.symm
  n := h.n.symm
  h := h.h.symm
  blkcnt := h.blkcnt.symm
  phase := h.phase.symm
  errTooLarge := h.errTooLarge.symm
  errCmd := h.errCmd.symm
  readData := h.readData.symm
  drawCount := h.drawCount.symm
  inputs := h.inputs.symm
  message a ha := (h.message a (h.n ▸ ha)).symm
  i hb := (h.i (h.busy ▸ hb)).symm
  ws hb hp := (h.ws (h.busy ▸ hb) (h.phase ▸ hp)).symm
  j hp := (h.j (h.phase ▸ hp)).symm
  wExpand hp k hk := by
    have hp' : s.phase = .expand := h.phase ▸ hp
    exact (h.wExpand hp' k (h.j hp' ▸ hk)).symm
  t hp := (h.t (h.phase ▸ hp)).symm
  wRound hp k hk hlt := by
    have hp' : s.phase = .round := h.phase ▸ hp
    exact (h.wRound hp' k (h.t hp' ▸ hk) hlt).symm

/-- INIT and a platform reset differ in hidden state only: at N = 0 no byte of MSG is part of the message, and
in IDLE no hidden register is alive. -/
theorem sameToHost_init_platformReset (hx : exec .init s = .next u) : SameToHost u (platformReset s) := by
  obtain rfl := execInit_next.mp hx
  exact {
    cfg := rfl, n := rfl, h := rfl, blkcnt := rfl, phase := rfl, errTooLarge := rfl, errCmd := rfl
    readData := rfl, drawCount := rfl, inputs := rfl
    message := nofun, i := nofun, ws := nofun, j := nofun, wExpand := nofun, t := nofun, wRound := nofun }

/-- Settles O18: both results hold the reset values of the visible elements. -/
theorem resetAndInitIndistinguishable : Obligations.ResetAndInitIndistinguishable := by
  intro s
  obtain ⟨u, hx, _, hu⟩ := initResult s
  have hsame := sameToHost_init_platformReset hx
  subst hu
  refine ⟨_, hx, fun x hmem => ?_, rfl, rfl, rfl, rfl, rfl, rfl, hsame, hsame.symm⟩
  obtain rfl | rfl := List.mem_pair.mp hmem
  · exact reads_of_reset_values rfl rfl rfl rfl rfl rfl
  · exact reads_of_reset_values rfl rfl rfl rfl rfl rfl

theorem step_of_reset {rest : List Turn} (hin : s.inputs = .reset :: rest) :
    step s = .next (platformReset { s with inputs := rest }) := by
  have hact : nextAction s = .platformReset := by simp [nextAction, hin]
  simp [step, hact, takeTurn_eq hin]

/-- Settles O16. -/
theorem platformResetValues : Obligations.PlatformResetValues := fun _ _ hin =>
  ⟨_, step_of_reset hin, rfl, rfl, rfl, rfl, rfl, rfl, status_eq_zero_of_idle rfl rfl rfl,
    fun _ => rfl, rfl, rfl⟩

/-! ### DONE stays (R304) -/

/-- While not BUSY an instruction that runs is a command, for the Core has no step (R210). -/
theorem isCommand_of_not_busy {i : Instr} (hb : s.busy = false) (h : nextAction s = .instr i) :
    isCommand i = true := by
  obtain ⟨hi, _⟩ | ⟨hp, _⟩ | ⟨hp, _⟩ | ⟨hp, _⟩ | ⟨hp, _⟩ := nextAction_instr h
  · exact hi
  all_goals simp [busy_of_phase_eq hp, phaseBusy] at hb

/-- Settles O56: of the instructions only commands run in DONE, and NOP is the one that the statement does not
name. -/
theorem doneStays : Obligations.DoneStays := by
  intro s s' hp h
  obtain ⟨i, hact, hx⟩ | ⟨_, rfl⟩ | ⟨r, _, rfl⟩ | ⟨_, rfl⟩ | ⟨hact, _⟩ := step_cases h
  · have hcommand := isCommand_of_not_busy (busy_of_phase_eq hp) hact
    cases i with
    | nop =>
      obtain rfl := execNop_next.mp hx
      exact .inr (.inr (.inr (.inr ⟨hp, rfl, rfl, rfl, rfl⟩)))
    | init => exact .inr (.inr (.inl hact))
    | pushByte b => exact .inl ⟨b, hact⟩
    | start => exact .inr (.inl hact)
    | _ => cases hcommand
  · exact .inr (.inr (.inr (.inr ⟨hp, rfl, rfl, rfl, rfl⟩)))
  · exact .inr (.inr (.inr (.inr ⟨hp, rfl, rfl, rfl, rfl⟩)))
  · exact .inr (.inr (.inr (.inr ⟨hp, rfl, rfl, rfl, rfl⟩)))
  · exact .inr (.inr (.inr (.inl hact)))

end Sys2Proof.Machine
end
